-- ==== Sys2Proof/Word.lean ====
section
/-! DEFINITION. The widths of the engine (00_scope.md R8, R10) and the one-bit choice of operation (30_encoding.md R71). -/

namespace Sys2Proof

/-- A byte of a record (20_memory.md R51). -/
abbrev Byte := BitVec 8

/-- A half-block, `HALF_BITS` = 32 (00_scope.md R8). -/
abbrev Half := BitVec 32

/-- A subkey, `SUBKEY_BITS` = 32 (00_scope.md R8). -/
abbrev Subkey := BitVec 32

/-- A block, `BLOCK_BITS` = 64 (00_scope.md R8). -/
abbrev Block := BitVec 64

/-- The master key, `KEY_BITS` = 64 (00_scope.md R8). -/
abbrev Key := BitVec 64

/-- A round index, 0 to 7: what the 3-bit register `RND` can hold (10_state.md R26, R27). -/
abbrev Index := Fin 8

/-- The two operations: the values of the `op` field and of the register `MODE` (10_state.md R25, 30_encoding.md R71). -/
inductive Op where
  | enc
  | dec
  deriving DecidableEq, Repr, Inhabited

end Sys2Proof
end

