-- ==== Sys2Proof/Config.lean ====
section
/-! DEFINITION. The constants wired into the engine (00_scope.md R8, 30_encoding.md R76) and the values the spec leaves open:
what the five data registers hold after a RESET (10_state.md R38) and how long a step takes (70_reset_and_hazards.md R222). -/

namespace Sys2Proof

/-- `NUM_ROUNDS`: applications of the round function per command (R8). -/
abbrev Config.numRounds : Nat := 8

/-- `F_ROTL`: left rotation of the half in F (R8, R76). -/
abbrev Config.fRotl : Nat := 9

/-- `F_ROTR`: right rotation of the subkey in F (R8, R76). -/
abbrev Config.fRotr : Nat := 11

/-- `KS_STEP`: key rotation per round index (R8, R76). -/
abbrev Config.ksStep : Nat := 3

/-- `REC_BYTES`: bytes in one record (R8). -/
abbrev Config.recBytes : Nat := 8

/-- FREE VALUE. `KEY` after the n-th RESET: the spec gives it no value (R38, R40); notes/assumptions/3.md. -/
opaque Config.resetKey : Nat → Key

/-- FREE VALUE. `L` after the n-th RESET (R38, R40); notes/assumptions/3.md. -/
opaque Config.resetL : Nat → Half

/-- FREE VALUE. `R` after the n-th RESET (R38, R40); notes/assumptions/3.md. -/
opaque Config.resetR : Nat → Half

/-- FREE VALUE. `RND` after the n-th RESET (R38, R40); notes/assumptions/3.md. -/
opaque Config.resetRnd : Nat → Index

/-- FREE VALUE. `MODE` after the n-th RESET (R38, R40); notes/assumptions/3.md. -/
opaque Config.resetMode : Nat → Op

/-- FREE VALUE. One less than the open parameter `T_ROUND`, the clock cycles of one step (R222, decision D18). -/
opaque Config.tRoundPred : Nat

/-- The open parameter `T_ROUND`: a positive number, on which no rule depends (R222); notes/assumptions/10.md. -/
def Config.tRound : Nat := Config.tRoundPred + 1

/-- Clock cycles between the start of a command and its response: eight steps of `T_ROUND` cycles (R222). -/
def Config.commandCycles : Nat := Config.numRounds * Config.tRound

end Sys2Proof
end

