-- ==== Sys2Proof/Machine/Operands.lean ====
section
/-! DEFINITION. Operand assembly: the halves of a block (30_encoding.md R74), the schedule's amount (R76), the round
indices in each direction, and the 8-byte records at the boundary (20_memory.md R50 to R54). -/

namespace Sys2Proof.Machine

/-- `block[63:32]` (00_scope.md R9). -/
def highHalf (block : Block) : Half := block.extractLsb' 32 32

/-- `block[31:0]` (00_scope.md R9). -/
def lowHalf (block : Block) : Half := block.extractLsb' 0 32

/-- `{a, b}`: `a` in bits 63 to 32, `b` in bits 31 to 0 (R9, R74). -/
def joinHalves (a b : Half) : Block := (a ++ b).cast rfl

/-- What START loads into `(L, R)` (R74, 43_encrypt.md R131, 44_decrypt.md R146). -/
def loadHalves : Op → Block → Half × Half
  | .enc, block => (highHalf block, lowHalf block)
  | .dec, block => (lowHalf block, highHalf block)

/-- How `(L, R)` become the response block: `{R, L}` for ENC, `{L, R}` for DEC (R74, 10_state.md R34). -/
def combine : Op → Half × Half → Block
  | .enc, p => joinHalves p.2 p.1
  | .dec, p => joinHalves p.1 p.2

/-- `amt = 3 * RND` (R76, 40_primitives.md R101). -/
def scheduleAmount (i : Index) : Nat := Config.ksStep * i.val

/-- The round index START writes: 0 for ENC, 7 for DEC (10_state.md R26). -/
def firstIndex : Op → Index
  | .enc => 0
  | .dec => 7

/-- The round index of the last round: 7 for ENC, 0 for DEC (45_sequencing_and_host.md R167). -/
def lastIndex : Op → Index
  | .enc => 7
  | .dec => 0

/-- The index after one that is not the last: up for ENC, down for DEC (R167). It is never applied to the last index, so
it never wraps (10_state.md R27). -/
def nextIndex : Op → Index → Index
  | .enc, i => i + 1
  | .dec, i => i - 1

/-- The round indices of a command in the order it uses them (42_subkey_schedule.md R124, R167). -/
def indices : Op → List Index
  | .enc => [0, 1, 2, 3, 4, 5, 6, 7]
  | .dec => [7, 6, 5, 4, 3, 2, 1, 0]

/-- A record: eight bytes, byte 0 first in stream order (20_memory.md R50). -/
abbrev Record := Vector Byte 8

/-- `PACK`: byte j is bits 8j to 8j+7 of the block (R51). -/
def pack (b : Record) : Block :=
  (b[7] ++ b[6] ++ b[5] ++ b[4] ++ b[3] ++ b[2] ++ b[1] ++ b[0]).cast rfl

/-- Lane j of a block: `v[8j+7 : 8j]` (00_scope.md R16). -/
def lane (v : Block) (j : Nat) : Byte := v.extractLsb' (8 * j) 8

/-- `UNPACK` (R52). -/
def unpack (v : Block) : Record :=
  #v[lane v 0, lane v 1, lane v 2, lane v 3, lane v 4, lane v 5, lane v 6, lane v 7]

/-- The sum of `n` bytes of a record from byte `a` on, byte `a` lowest (00_scope.md R12). -/
def sumBytes (b : Record) (a : Nat) : Nat → Nat
  | 0 => 0
  | n + 1 => sumBytes b a n + (b.toList.getD (a + n) 0#8).toNat * 2 ^ (8 * n)

/-- `MemRead(a, n)` on a record, which is defined only for `a + n <= 8` (00_scope.md R12, 20_memory.md R53). -/
def memRead (b : Record) (a n : Nat) : Option Block :=
  if a + n ≤ 8 then some (BitVec.ofNat 64 (sumBytes b a n)) else none

/-- `rsp_byte[a+j] <- v[8j+7 : 8j]` for the first `n` j, over a list of bytes (00_scope.md R12). -/
def putBytes (v : Block) (a : Nat) : Nat → Record → Record
  | 0, b => b
  | n + 1, b => (putBytes v a n b).setIfInBounds (a + n) (lane v n)

/-- `MemWrite(a, n, v)` on a record, which is defined only for `a + n <= 8` (00_scope.md R12, 20_memory.md R53). -/
def memWrite (b : Record) (a n : Nat) (v : Block) : Option Record :=
  if a + n ≤ 8 then some (putBytes v a n b) else none

end Sys2Proof.Machine
end

