-- ==== Sys2Proof/Machine/Primitives.lean ====
section
/-! DEFINITION. The arithmetic primitives of the data path (40_primitives.md): total functions on fixed widths that set no
flag and raise nothing (R90). -/

namespace Sys2Proof.Machine

/-- `ROTL32(x, n)`, the amount taken modulo 32 (R91, R92). -/
def rotl32 (x : Half) (n : Nat) : Half := x.rotateLeft (n % 32)

/-- `ROTR32(x, n)`, the amount taken modulo 32 (R93, R94). -/
def rotr32 (x : Half) (n : Nat) : Half := x.rotateRight (n % 32)

/-- `ROTR64(x, n)`, the amount taken modulo 64 (R95, R96). -/
def rotr64 (x : Key) (n : Nat) : Key := x.rotateRight (n % 64)

/-- `XOR32(a, b)` (R97). -/
def xor32 (a b : Half) : Half := a ^^^ b

/-- `AND32(a, b)` (R98). -/
def and32 (a b : Half) : Half := a &&& b

/-- `NOT32(a)`, the complement within 32 bits (R99). -/
def not32 (a : Half) : Half := ~~~a

/-- `TRUNC32(x)`, the low 32 bits (R100). -/
def trunc32 (x : BitVec 64) : BitVec 32 := x.extractLsb' 0 32

end Sys2Proof.Machine
end

