-- ==== Sys2Proof/Machine/Cipher.lean ====
section
/-! DEFINITION. The cipher: the round function (41_round_function.md), the subkey schedule (42_subkey_schedule.md), one
round in each direction, and the transformations ENC and DEC (43_encrypt.md, 44_decrypt.md). Pure and total. -/

namespace Sys2Proof.Machine

/-- `F(h, k)`: the complement is of the whole AND, and the XOR is outermost (R110, R111). -/
def roundFunction (h : Half) (k : Subkey) : Half :=
  xor32 (rotl32 h Config.fRotl) (not32 (and32 (rotr32 k Config.fRotr) h))

/-- `SK(key, i)`: rotate all 64 bits, then keep the low 32 (R120). -/
def subkey (key : Key) (i : Index) : Subkey := trunc32 (rotr64 key (scheduleAmount i))

/-- One encrypt round on `(L, R)`: `L <- R`, `R <- XOR32(L, F(R, K))`, both from the old values (R130, R132). -/
def encRound (k : Subkey) (p : Half × Half) : Half × Half := (p.2, xor32 p.1 (roundFunction p.2 k))

/-- One decrypt round on `(L, R)`: `R <- L`, `L <- XOR32(R, F(L, K))`, both from the old values (R145, R147). -/
def decRound (k : Subkey) (p : Half × Half) : Half × Half := (xor32 p.2 (roundFunction p.1 k), p.1)

/-- The round `MODE` selects (45_sequencing_and_host.md R166). -/
def modeRound : Op → Subkey → Half × Half → Half × Half
  | .enc => encRound
  | .dec => decRound

/-- `ENC(block, key)` (R130). -/
def encrypt (block : Block) (key : Key) : Block :=
  let p := (indices .enc).foldl (fun p i => encRound (subkey key i) p) (highHalf block, lowHalf block)
  joinHalves p.2 p.1

/-- `DEC(block, key)` (R145). -/
def decrypt (block : Block) (key : Key) : Block :=
  let p := (indices .dec).foldl (fun p i => decRound (subkey key i) p) (lowHalf block, highHalf block)
  joinHalves p.1 p.2

/-- The transformation a command names (45_sequencing_and_host.md R169). -/
def transform : Op → Block → Key → Block
  | .enc => encrypt
  | .dec => decrypt

/-- The variables `L`, `R` of R130 or R145 after the loop has run for the first `n` of its indices (R134, R149). -/
def halvesAfter (op : Op) (key : Key) (block : Block) (n : Nat) : Half × Half :=
  ((indices op).take n).foldl (fun p i => modeRound op (subkey key i) p) (loadHalves op block)

end Sys2Proof.Machine
end

