-- ==== Sys2Proof/Machine/State.lean ====
section
/-! DEFINITION. The state: the engine's six registers (10_state.md R20), and beside them what the model adds so that one
deterministic step shows the host as well: what the host will drive, what it has been given, and a counter for free values. -/

namespace Sys2Proof.Machine

/-- `PHASE`: exactly three values; the encoding 3 is unrepresentable (10_state.md R28, R29). -/
inductive Phase where
  | idle
  | run
  | done
  deriving DecidableEq, Repr

/-- The values on the input ports in one state (10_state.md R33). -/
structure Ports where
  rst : Bool
  cmdValid : Bool
  rspTake : Bool
  cmdOp : Op
  cmdKey : Key
  cmdBlock : Block
  deriving DecidableEq, Repr

/-- One thing the host does: drive the ports for one state (30_encoding.md R73), or carry out one command, the
pseudo-instruction ENC or DEC given as its CMD word (30_encoding.md R81, R82). -/
inductive HostAct where
  | drive (p : Ports)
  | command (w : BitVec 129)
  deriving DecidableEq, Repr

/-- The state of one engine and of its host. -/
structure State where
  /-- `PHASE` (R28). -/
  phase : Phase
  /-- `MODE` (R25). -/
  mode : Op
  /-- `RND` (R26). -/
  rnd : Index
  /-- `KEY` (R21). -/
  key : Key
  /-- `L` (R22). -/
  l : Half
  /-- `R` (R23). -/
  r : Half
  /-- The MODEL's field: what the host does next, this state's first; when the list is empty the host asserts nothing
  (notes/assumptions/1.md). -/
  host : List HostAct
  /-- The MODEL's field: the values TAKE has delivered to the host, oldest first (notes/assumptions/5.md). -/
  delivered : List Block
  /-- The MODEL's field: how many RESET steps have happened, the argument of the free values (notes/assumptions/4.md). -/
  resets : Nat
  deriving DecidableEq, Repr

/-- The faults: none. "A model's fault type for this engine has no constructor" (60_exceptions.md R190). -/
inductive Fault where
  deriving DecidableEq, Repr

/-- The refusals. -/
inductive Refusal where
  /-- Raised by an arm of `exec` for an instruction without a meaning; safe. Every instruction of this model has one, so
  no arm raises it. -/
  | notModelled (mnemonic : String)
  deriving DecidableEq, Repr

/-- The machine after its first RESET: `PHASE` is IDLE and the five other registers have no value of the spec's, so they
hold free values that nothing can evaluate (10_state.md R38, R40; notes/assumptions/3.md). The host has nothing to do and
has been given nothing. -/
def State.reset : State where
  phase := .idle
  mode := Config.resetMode 0
  rnd := Config.resetRnd 0
  key := Config.resetKey 0
  l := Config.resetL 0
  r := Config.resetR 0
  host := []
  delivered := []
  resets := 1

end Sys2Proof.Machine
end

