-- ==== Sys2Proof/Machine/Flags.lean ====
section
/-! DEFINITION. The outputs. The engine has no flags and no condition codes (10_state.md R30): what a host can read are
three status bits that are functions of `PHASE` alone (R29), and the response block while there is one (R34). -/

namespace Sys2Proof.Machine

/-- The 2-bit encoding of `PHASE` (R29). -/
def Phase.bits : Phase → BitVec 2
  | .idle => 0#2
  | .run => 1#2
  | .done => 2#2

/-- The output `cmd_ready` (R29). -/
def State.cmdReady (s : State) : Bool := s.phase == .idle

/-- The output `busy` (R29). -/
def State.busy (s : State) : Bool := s.phase == .run

/-- The output `rsp_valid` (R29). -/
def State.rspValid (s : State) : Bool := s.phase == .done

/-- The output `rsp_block`: wiring from `MODE`, `L` and `R` that has a value only in DONE (R34, 70_reset_and_hazards.md R216). -/
def State.rspBlock (s : State) : Option Block :=
  if s.phase = .done then some (combine s.mode (s.l, s.r)) else none

/-- The response record, `rsp_byte[j] = rsp_block[8j+7 : 8j]` (R33, R34). -/
def State.rspRecord (s : State) : Option Record := s.rspBlock.map unpack

/-- The command record, `cmd_byte[j] = cmd_block[8j+7 : 8j]` (R33). -/
def Ports.cmdRecord (p : Ports) : Record := unpack p.cmdBlock

end Sys2Proof.Machine
end

