-- ==== Sys2Proof/Machine/Ops.lean ====
section
/-! DEFINITION. The operations the steps are made of. There is no memory, no exception to take and no return from one
(20_memory.md R57, 60_exceptions.md R190, R198, R199), so the operations are the register writes of the four steps
(45_sequencing_and_host.md R163, R166, R170; 70_reset_and_hazards.md R210) and the transaction made of them (R172). A
step whose phase does not hold "does not exist in that state" (R161): the operation leaves the state as it is. -/

namespace Sys2Proof.Machine

/-- The writes of START, all six registers (R163, R131, R146). -/
def State.load (op : Op) (key : Key) (block : Block) (s : State) : State :=
  { s with
    key := key
    mode := op
    l := (loadHalves op block).1
    r := (loadHalves op block).2
    rnd := firstIndex op
    phase := .run }

/-- START, enabled in IDLE; elsewhere the offer is held and changes nothing (R163, R164). -/
def State.startStep (op : Op) (key : Key) (block : Block) (s : State) : State :=
  if s.phase = .idle then s.load op key block else s

/-- The new halves of a ROUND: the round of `MODE` under the subkey of `KEY` and `RND` (R166, R115, R124). -/
def State.newHalves (s : State) : Half × Half := modeRound s.mode (subkey s.key s.rnd) (s.l, s.r)

/-- `RND` after a ROUND: unchanged by the last one (R167). -/
def State.newRnd (s : State) : Index := if s.rnd = lastIndex s.mode then s.rnd else nextIndex s.mode s.rnd

/-- `PHASE` after a ROUND: DONE after the last one (R167). -/
def State.newPhase (s : State) : Phase := if s.rnd = lastIndex s.mode then .done else .run

/-- The writes of ROUND, every right-hand side read before the step (R132, R147, R167, 00_scope.md R11). -/
def State.advance (s : State) : State :=
  { s with
    l := s.newHalves.1
    r := s.newHalves.2
    rnd := s.newRnd
    phase := s.newPhase }

/-- ROUND, enabled in RUN (R166). -/
def State.roundStep (s : State) : State := if s.phase = .run then s.advance else s

/-- The writes of TAKE, which delivers a block: `PHASE <- IDLE` and nothing else of the engine's (R170). -/
def State.deliver (v : Block) (s : State) : State := { s with phase := .idle, delivered := s.delivered ++ [v] }

/-- TAKE, enabled in DONE, where `rsp_block` has a value; elsewhere it is ignored and not remembered (R170, R171). -/
def State.takeStep (s : State) : State :=
  match s.rspBlock with
  | some v => s.deliver v
  | none => s

/-- RESET, enabled in every state: `PHASE <- IDLE`, the other five registers without value, here free values (R210). It
delivers nothing and does not reach the host (R211). -/
def State.resetStep (s : State) : State :=
  { s with
    phase := .idle
    key := Config.resetKey s.resets
    l := Config.resetL s.resets
    r := Config.resetR s.resets
    rnd := Config.resetRnd s.resets
    mode := Config.resetMode s.resets
    resets := s.resets + 1 }

/-- `ROUND *n`: n ROUND steps (30_encoding.md R81). -/
def State.rounds : Nat → State → State
  | 0, s => s
  | n + 1, s => State.rounds n s.roundStep

/-- A command carried out: START, eight ROUND steps, TAKE (30_encoding.md R81, R169). Outside IDLE the command is held
and no register changes (R164). -/
def State.transact (op : Op) (key : Key) (block : Block) (s : State) : State :=
  if s.phase = .idle then ((s.startStep op key block).rounds Config.numRounds).takeStep else s

/-- The host's list replaced. -/
def State.withHost (h : List HostAct) (s : State) : State := { s with host := h }

end Sys2Proof.Machine
end

