-- ==== Sys2Proof/Machine/Commands.lean ====
section
/-! DEFINITION. The meanings of format CMD: the two commands. -/

namespace Sys2Proof.Machine

/-- ENC: the command with `op` = 0, whose delivered result is `ENC(block, key)` (43_encrypt.md R130, R134). -/
def execEnc (key : Key) (block : Block) (s : State) : Host.Outcome State Fault Refusal :=
  .next (s.transact .enc key block)

/-- DEC: the command with `op` = 1, whose delivered result is `DEC(block, key)` (44_decrypt.md R145, R149). -/
def execDec (key : Key) (block : Block) (s : State) : Host.Outcome State Fault Refusal :=
  .next (s.transact .dec key block)

end Sys2Proof.Machine
end

