-- ==== Sys2Proof/Machine/Events.lean ====
section
/-! DEFINITION. The meanings of format EVT: the four steps. -/

namespace Sys2Proof.Machine

/-- RESET (70_reset_and_hazards.md R210). -/
def execReset (s : State) : Host.Outcome State Fault Refusal := .next s.resetStep

/-- START (45_sequencing_and_host.md R163). -/
def execStart (op : Op) (key : Key) (block : Block) (s : State) : Host.Outcome State Fault Refusal :=
  .next (s.startStep op key block)

/-- ROUND (45_sequencing_and_host.md R166). -/
def execRound (s : State) : Host.Outcome State Fault Refusal := .next s.roundStep

/-- TAKE (45_sequencing_and_host.md R170). -/
def execTake (s : State) : Host.Outcome State Fault Refusal := .next s.takeStep

end Sys2Proof.Machine
end

