-- ==== Sys2Proof/Syntax.lean ====
section
/-! DEFINITION. The instructions: one constructor per row of spec/opcode_table.json, in the table's order. -/

namespace Sys2Proof

/-- The six rows of the opcode table: the two commands of format CMD (30_encoding.md R72) and the four steps of format
EVT (R73). `start` carries the three operands it samples from the command ports (45_sequencing_and_host.md R163, R165);
RESET, ROUND and TAKE carry none (R82). -/
inductive Instr where
  /-- Row ENC: the command `{0, key, block}`, a whole transaction (43_encrypt.md R130, 30_encoding.md R81). -/
  | enc (key : Key) (block : Block)
  /-- Row DEC: the command `{1, key, block}`, a whole transaction (44_decrypt.md R145, 30_encoding.md R81). -/
  | dec (key : Key) (block : Block)
  /-- Row RESET, agent host (70_reset_and_hazards.md R210). -/
  | reset
  /-- Row START, agent host (45_sequencing_and_host.md R163). -/
  | start (op : Op) (key : Key) (block : Block)
  /-- Row ROUND, agent engine (45_sequencing_and_host.md R166). -/
  | round
  /-- Row TAKE, agent host (45_sequencing_and_host.md R170). -/
  | take
  deriving DecidableEq, Repr

end Sys2Proof
end

