-- ==== Sys2Proof/Machine/Dispatch.lean ====
section
/-! DEFINITION. The one dispatch: each instruction's meaning. -/

namespace Sys2Proof.Machine

def exec (i : Instr) (s : State) : Host.Outcome State Fault Refusal :=
  match i with
  | .enc key block => Sys2Proof.Machine.execEnc key block s
  | .dec key block => Sys2Proof.Machine.execDec key block s
  | .reset => Sys2Proof.Machine.execReset s
  | .start op key block => Sys2Proof.Machine.execStart op key block s
  | .round => Sys2Proof.Machine.execRound s
  | .take => Sys2Proof.Machine.execTake s

end Sys2Proof.Machine
end

