-- ==== Sys2Proof/WellFormed.lean ====
section
/-! DEFINITION. Which instructions are well formed: all of them. The engine has no reserved, illegal, hint or custom
encoding (30_encoding.md R77), so there is no check to make and none to refuse. The one range the spec does check, the
count of a script's ROUND statement, is `Stmt.wellFormed` in Machine/Script.lean. -/

namespace Sys2Proof

/-- Every operand value is legal for every instruction (R77): "there is nothing for a decoder to refuse". -/
def Instr.wellFormed : Instr → Bool
  | .enc _ _ => true
  | .dec _ _ => true
  | .reset => true
  | .start _ _ _ => true
  | .round => true
  | .take => true

end Sys2Proof
end

