-- ==== Sys2Proof/Decode.lean ====
section
/-! DEFINITION. The two formats (30_encoding.md R70), the decoder of both, total and rejecting by name, and the encoder,
written from the same tables (R71, R72, R73). -/

namespace Sys2Proof

/-- Why a word names no instruction. -/
inductive Reject where
  /-- No row of the EVT table matches: no step happens (R73). The machine goes on with its state unchanged. -/
  | noStep
  /-- `rst` = 0 and `PHASE` = 3, which no step produces (R29, R73): no step but RESET is enabled (item I10). -/
  | phaseThree
  /-- The word has a bit set above its format's width (R71, R73). -/
  | bitsAboveFormat
  /-- No format has this width (R70). -/
  | noFormat
  deriving DecidableEq, Repr

/-- An encoded instruction: a CMD word (R71), or an EVT word together with the CMD word that stands on the command ports,
which only START reads (R73, R163). -/
inductive Encoded where
  | cmd (w : BitVec 129)
  | evt (e : BitVec 5) (w : BitVec 129)
  deriving DecidableEq, Repr

/-- The `op` bit: 0 = ENC, 1 = DEC (R71). -/
def Op.bit : Op → BitVec 1
  | .enc => 0#1
  | .dec => 1#1

/-- The operation an `op` bit names; both values are assigned (R72, R77). -/
def Op.ofBit (b : BitVec 1) : Op := if b = 1#1 then .dec else .enc

/-- `cmd = {op, key, block}` (R71). -/
def cmdWord (op : Op) (key : Key) (block : Block) : BitVec 129 :=
  (op.bit ++ key ++ block).cast rfl

/-- Bit [128] of a CMD word (R71). -/
def opField (w : BitVec 129) : Op := Op.ofBit (w.extractLsb' 128 1)

/-- Bits [127:64] of a CMD word (R71). -/
def keyField (w : BitVec 129) : Key := w.extractLsb' 64 64

/-- Bits [63:0] of a CMD word (R71). -/
def blockField (w : BitVec 129) : Block := w.extractLsb' 0 64

/-- The CMD decoder: total on every word (R72). -/
def decodeCmd (w : BitVec 129) : Instr :=
  match opField w with
  | .enc => .enc (keyField w) (blockField w)
  | .dec => .dec (keyField w) (blockField w)

/-- A row of the EVT table matches: the masked bits have the row's values (R73). -/
def evtMatches (mask value e : BitVec 5) : Bool := e &&& mask == value

/-- Row RESET: `rst` = 1, everything else any (R73). -/
def isReset (e : BitVec 5) : Bool := evtMatches 0b10000#5 0b10000#5 e

/-- Row START: `rst` = 0, `cmd_valid` = 1, `PHASE` = 00 (R73). -/
def isStart (e : BitVec 5) : Bool := evtMatches 0b11011#5 0b01000#5 e

/-- Row ROUND: `rst` = 0, `PHASE` = 01 (R73). -/
def isRound (e : BitVec 5) : Bool := evtMatches 0b10011#5 0b00001#5 e

/-- Row TAKE: `rst` = 0, `rsp_take` = 1, `PHASE` = 10 (R73). -/
def isTake (e : BitVec 5) : Bool := evtMatches 0b10111#5 0b00110#5 e

/-- The EVT decoder: which step the inputs and the phase select, with the operands of the command ports for START (R73). -/
def decodeEvt (e : BitVec 5) (w : BitVec 129) : Except Reject Instr :=
  if isReset e then .ok .reset
  else if isStart e then .ok (.start (opField w) (keyField w) (blockField w))
  else if isRound e then .ok .round
  else if isTake e then .ok .take
  else if e.extractLsb' 0 2 == 3#2 then .error .phaseThree
  else .error .noStep

/-- The decoder of both formats (R70). -/
def decode : Encoded → Except Reject Instr
  | .cmd w => .ok (decodeCmd w)
  | .evt e w => decodeEvt e w

/-- A word of `nbits` bits as one of the two formats, which differ in width and in nothing else a decoder could look at
(R70): 129 bits, or 17 whole bytes, are a CMD word; 5 bits, or one whole byte, are an EVT word with zeros on the command
ports (notes/assumptions/12.md). -/
def readWord (nbits w : Nat) : Except Reject Encoded :=
  if nbits = 129 ∨ nbits = 136 then
    if w < 2 ^ 129 then .ok (.cmd (BitVec.ofNat 129 w)) else .error .bitsAboveFormat
  else if nbits = 5 ∨ nbits = 8 then
    if w < 2 ^ 5 then .ok (.evt (BitVec.ofNat 5 w) 0#129) else .error .bitsAboveFormat
  else .error .noFormat

/-- Reading a word and decoding it. -/
def decodeWord (nbits w : Nat) : Except Reject Instr :=
  match readWord nbits w with
  | .ok x => decode x
  | .error r => .error r

/-- The number a list of bytes makes, the first byte lowest. -/
def bytesValue : List Byte → Nat
  | [] => 0
  | b :: bs => b.toNat + 256 * bytesValue bs

/-- The decoder on any bytes: one byte is an EVT word, seventeen are a CMD word, and no other length is a format. -/
def decodeBytes (bs : List Byte) : Except Reject Instr := decodeWord (8 * bs.length) (bytesValue bs)

/-- What the decoder reads from a word numbered as spec/opcode_table.json numbers it. -/
def decodeTableWord (nbits w : Nat) : Option Instr :=
  match decodeWord nbits w with
  | .ok i => some i
  | .error _ => none

/-- The encoder: an EVT row's ignored bits are written 0, so a step's word is its row's match value (R73), and START has
its command on the ports (R82). -/
def encode : Instr → Encoded
  | .enc key block => .cmd (cmdWord .enc key block)
  | .dec key block => .cmd (cmdWord .dec key block)
  | .reset => .evt 0b10000#5 0#129
  | .start op key block => .evt 0b01000#5 (cmdWord op key block)
  | .round => .evt 0b00001#5 0#129
  | .take => .evt 0b00110#5 0#129

end Sys2Proof
end

