-- ==== Sys2Proof/Machine/HostSide.lean ====
section
/-! DEFINITION. What stands where other hardware fetches: the engine fetches nothing (20_memory.md R63), the step that
happens is selected by the input ports and the phase (30_encoding.md R73), or is a command the host carries out (R81). -/

namespace Sys2Proof.Machine

/-- The ports when the host drives nothing: no request is asserted (notes/assumptions/1.md). -/
def Ports.undriven : Ports :=
  { rst := false, cmdValid := false, rspTake := false, cmdOp := .enc, cmdKey := 0#64, cmdBlock := 0#64 }

/-- The ports while the host offers a command and does nothing else (45_sequencing_and_host.md R164). -/
def Ports.offer (w : BitVec 129) : Ports :=
  { rst := false, cmdValid := true, rspTake := false, cmdOp := opField w, cmdKey := keyField w, cmdBlock := blockField w }

/-- The CMD word on the command ports (R71). -/
def Ports.cmd (p : Ports) : BitVec 129 := cmdWord p.cmdOp p.cmdKey p.cmdBlock

/-- `evt = {rst, cmd_valid, rsp_take, PHASE}` (R73). -/
def evtWord (rst cmdValid rspTake : Bool) (phase : Phase) : BitVec 5 :=
  BitVec.ofBool rst ++ BitVec.ofBool cmdValid ++ BitVec.ofBool rspTake ++ phase.bits

/-- The EVT word of the ports in a phase (R73). -/
def Ports.evt (p : Ports) (phase : Phase) : BitVec 5 := evtWord p.rst p.cmdValid p.rspTake phase

/-- The host offers a command: `cmd_valid` is asserted (10_state.md R33), or a whole command is to be carried out. -/
def HostAct.offers : HostAct → Bool
  | .drive p => p.cmdValid
  | .command _ => true

/-- What is on the input ports in this state. -/
def State.ports (s : State) : Ports :=
  match s.host with
  | [] => .undriven
  | .drive p :: _ => p
  | .command w :: _ => .offer w

/-- The encoded instruction of this state: a command that finds the engine IDLE is carried out as one; everything else is
the EVT word of the ports and the phase. -/
def State.encoded (s : State) : Encoded :=
  match s.host, s.phase with
  | .command w :: _, .idle => .cmd w
  | _, _ => .evt (s.ports.evt s.phase) s.ports.cmd

/-- The instruction of this state, or why there is none. -/
def State.fetch (s : State) : Except Reject Instr := decode s.encoded

/-- What the host still has to do after this state: a drive lasts one state, a command stays up until it is accepted (R164). -/
def State.hostAfter (s : State) : List HostAct :=
  match s.host, s.phase with
  | .drive _ :: rest, _ => rest
  | .command _ :: rest, .idle => rest
  | h, _ => h

/-- An outcome with the host moved on to `h`. -/
def moveHost (h : List HostAct) : Host.Outcome State Fault Refusal → Host.Outcome State Fault Refusal
  | .next t => .next (t.withHost h)
  | .fault r => .fault r
  | .refused r => .refused r

/-- What a step does when no row matches: no step happens and no register changes (R73). -/
def State.noStep (s : State) : Host.Outcome State Fault Refusal := moveHost s.hostAfter (.next s)

/-- The ports an EVT word shows, with a CMD word on the command ports (R73). -/
def Ports.ofEvt (e : BitVec 5) (w : BitVec 129) : Ports :=
  { rst := e.getLsbD 4, cmdValid := e.getLsbD 3, rspTake := e.getLsbD 2, cmdOp := opField w, cmdKey := keyField w,
    cmdBlock := blockField w }

/-- The phase in which an EVT word's step happens: RESET happens in any, so `s` keeps its own; otherwise the word's
`PHASE` field says it (R29, R73). -/
def phaseFor (e : BitVec 5) (s : State) : Phase :=
  if isReset e then s.phase
  else if e.extractLsb' 0 2 == 0#2 then .idle
  else if e.extractLsb' 0 2 == 1#2 then .run
  else if e.extractLsb' 0 2 == 2#2 then .done
  else s.phase

/-- The state made ready so that the very next step runs an encoded instruction (notes/assumptions/6.md). -/
def State.place (x : Encoded) (s : State) : State :=
  match x with
  | .cmd w => { s with phase := .idle, host := .command w :: s.host }
  | .evt e w => { s with phase := phaseFor e s, host := .drive (Ports.ofEvt e w) :: s.host }

end Sys2Proof.Machine
end

