-- ==== Sys2Proof/Machine/Step.lean ====
section
/-! DEFINITION. One step of the engine and its host (45_sequencing_and_host.md R160, R162): a next state on every path. -/

namespace Sys2Proof.Machine

/-- One step: the instruction of this state is run and the host moves on; where no row of the EVT table matches, only the
host moves on (30_encoding.md R73). -/
def step (s : State) : Host.Outcome State Fault Refusal :=
  match s.fetch with
  | .ok i => moveHost s.hostAfter (exec i s)
  | .error _ => s.noStep

/-- `s` with a word numbered as spec/opcode_table.json numbers it placed where the next step finds its instruction; a word
that no format has leaves `s` as it is (notes/assumptions/6.md, notes/assumptions/12.md). -/
def State.withFetchWord (s : State) (nbits w : Nat) : State :=
  match readWord nbits w with
  | .ok x => s.place x
  | .error _ => s

end Sys2Proof.Machine
end

