-- ==== Sys2Proof/Machine/Instances.lean ====
section
/-! DEFINITION. Several engines side by side: "a model of several instances is the product of independent copies of the
machine" (60_exceptions.md R204). -/

namespace Sys2Proof.Machine

/-- One step of instance `k`; the others keep their states. There is nothing to step where there is no such instance. -/
def stepInstance (k : Nat) (ss : List State) : Host.Outcome (List State) Fault Refusal :=
  match ss[k]? with
  | some s =>
    match step s with
    | .next t => .next (ss.set k t)
    | .fault r => .fault r
    | .refused r => .refused r
  | none => .next ss

/-- The steps of a schedule, which names the instance that steps, in order. -/
def runInstances : List Nat → List State → Host.Outcome (List State) Fault Refusal
  | [], ss => .next ss
  | k :: rest, ss =>
    match stepInstance k ss with
    | .next ts => runInstances rest ts
    | .fault r => .fault r
    | .refused r => .refused r

end Sys2Proof.Machine
end

