-- ==== Sys2Proof/Machine/Script.lean ====
section
/-! DEFINITION. Scripts, the spec's assembler (30_encoding.md R79 to R82): statements, the pseudo-instructions and their
expansions, the run a script describes, the CMD words it presents, and the reading of one line of text. -/

namespace Sys2Proof.Machine

/-- The statements of R79. A bare ENC or DEC is `command`; an optional `-> V` is an `Option`. -/
inductive Stmt where
  | reset
  | start (op : Op) (key : Key) (block : Block)
  | round (count : Nat)
  | take (expect : Option Block)
  | command (op : Op) (key : Key) (block : Block) (expect : Option Block)
  deriving DecidableEq, Repr

/-- The one range R79 gives: a ROUND count is from 1 to 8. -/
def Stmt.wellFormed : Stmt → Bool
  | .round n => decide (1 ≤ n ∧ n ≤ 8)
  | _ => true

/-- The expansion of a statement into statements that are one step each (R81). -/
def Stmt.expand : Stmt → List Stmt
  | .round n => List.replicate n (.round 1)
  | .command op key block expect =>
    .start op key block :: (List.replicate Config.numRounds (.round 1) ++ [.take expect])
  | s => [s]

/-- What a one-step statement requires of the state; `TAKE -> V` also asserts the value taken (R80). -/
def Stmt.requires (s : State) : Stmt → Bool
  | .reset => true
  | .start _ _ _ => s.cmdReady
  | .round _ => s.busy
  | .take none => s.rspValid
  | .take (some v) => s.rspBlock == some v
  | .command _ _ _ _ => s.cmdReady

/-- The step of a one-step statement (R80, R82). -/
def Stmt.instr : Stmt → Instr
  | .reset => .reset
  | .start op key block => .start op key block
  | .round _ => .round
  | .take _ => .take
  | .command .enc key block _ => .enc key block
  | .command .dec key block _ => .dec key block

/-- One one-step statement run; `none` where its requirement does not hold: the script describes no run (R80). -/
def Stmt.run (s : State) (st : Stmt) : Option State :=
  if st.requires s then
    match exec st.instr s with
    | .next t => some t
    | .fault _ => none
    | .refused _ => none
  else none

/-- A list of one-step statements run. -/
def runExpanded : List Stmt → State → Option State
  | [], s => some s
  | st :: rest, s =>
    match st.run s with
    | some t => runExpanded rest t
    | none => none

/-- A script run: every statement well formed, expanded, and run in order (R79 to R81). -/
def runScript (script : List Stmt) (s : State) : Option State :=
  if script.all Stmt.wellFormed then runExpanded (script.flatMap Stmt.expand) s else none

/-- The CMD words a script presents: one for each START, so one for each bare ENC or DEC (R82). -/
def cmdWords : List Stmt → List (BitVec 129)
  | [] => []
  | .start op key block :: rest => cmdWord op key block :: cmdWords rest
  | .command op key block _ :: rest => cmdWord op key block :: cmdWords rest
  | _ :: rest => cmdWords rest

/-- A line's text before its comment (R79: ";" starts a comment that runs to the end of the line). -/
def dropComment : List Char → List Char
  | [] => []
  | c :: cs => if c == ';' then [] else c :: dropComment cs

/-- The words of a line: what stands between blanks; `cur` is the word read so far, reversed. -/
def splitWords (cur : List Char) : List Char → List (List Char)
  | [] => if cur.isEmpty then [] else [cur.reverse]
  | c :: cs =>
    if c == ' ' then
      if cur.isEmpty then splitWords [] cs else cur.reverse :: splitWords [] cs
    else splitWords (c :: cur) cs

/-- A hexadecimal digit. -/
def hexDigit (c : Char) : Option Nat :=
  if '0' ≤ c ∧ c ≤ '9' then some (c.toNat - 48)
  else if 'A' ≤ c ∧ c ≤ 'F' then some (c.toNat - 55)
  else if 'a' ≤ c ∧ c ≤ 'f' then some (c.toNat - 87)
  else none

/-- The value of a row of hexadecimal digits, after `acc`. -/
def hexDigits (acc : Nat) : List Char → Option Nat
  | [] => some acc
  | c :: cs =>
    match hexDigit c with
    | some d => hexDigits (16 * acc + d) cs
    | none => none

/-- `hex64`: "0x" and exactly 16 hexadecimal digits (R79). -/
def hex64 : List Char → Option (BitVec 64)
  | '0' :: 'x' :: ds => if ds.length = 16 then (hexDigits 0 ds).map (BitVec.ofNat 64) else none
  | _ => none

/-- `count`: one decimal digit from 1 to 8 (R79). -/
def countWord : List Char → Option Nat
  | [c] => if '1' ≤ c ∧ c ≤ '8' then some (c.toNat - 48) else none
  | _ => none

/-- `op` (R79). -/
def opWord : List Char → Option Op
  | ['E', 'N', 'C'] => some .enc
  | ['D', 'E', 'C'] => some .dec
  | _ => none

/-- `"key=" hex64` (R79). -/
def keyWord : List Char → Option Key
  | 'k' :: 'e' :: 'y' :: '=' :: v => hex64 v
  | _ => none

/-- `"block=" hex64` (R79). -/
def blockWord : List Char → Option Block
  | 'b' :: 'l' :: 'o' :: 'c' :: 'k' :: '=' :: v => hex64 v
  | _ => none

/-- The operands of START and of a bare command (R79, R80: named, always in this order). -/
def operandWords (o k b : List Char) : Option (Op × Key × Block) :=
  match opWord o, keyWord k, blockWord b with
  | some op, some key, some block => some (op, key, block)
  | _, _, _ => none

/-- One statement from the words of its line (R79). -/
def parseStmt : List (List Char) → Option Stmt
  | [['R', 'E', 'S', 'E', 'T']] => some .reset
  | [['S', 'T', 'A', 'R', 'T'], o, k, b] => (operandWords o k b).map fun x => .start x.1 x.2.1 x.2.2
  | [['R', 'O', 'U', 'N', 'D']] => some (.round 1)
  | [['R', 'O', 'U', 'N', 'D'], '*' :: n] => (countWord n).map .round
  | [['T', 'A', 'K', 'E']] => some (.take none)
  | [['T', 'A', 'K', 'E'], ['-', '>'], v] => (hex64 v).map fun x => .take (some x)
  | [o, k, b] => (operandWords o k b).map fun x => .command x.1 x.2.1 x.2.2 none
  | [o, k, b, ['-', '>'], v] =>
    match operandWords o k b, hex64 v with
    | some x, some y => some (.command x.1 x.2.1 x.2.2 (some y))
    | _, _ => none
  | _ => none

/-- One line: `some []` for a line with no statement, `none` for a line outside the grammar (R79). -/
def parseLine (line : List Char) : Option (List Stmt) :=
  match splitWords [] (dropComment line) with
  | [] => some []
  | ws => (parseStmt ws).map fun st => [st]

/-- A script's lines read in order (R79). -/
def parseScript : List (List Char) → Option (List Stmt)
  | [] => some []
  | line :: rest =>
    match parseLine line, parseScript rest with
    | some a, some b => some (a ++ b)
    | _, _ => none

end Sys2Proof.Machine
end

