-- ==== Sys2Proof/Safety.lean ====
section
/-! DEFINITION. What claims are stated in: the invariant of the registers, a state inside a command, hosts that do not
reset, and safe runs. -/

namespace Sys2Proof.Machine

/-- The rounds of the current command that have run: by `MODE` and `RND` in RUN, all eight in DONE (10_state.md R39). -/
def State.roundsRun (s : State) : Nat :=
  match s.phase, s.mode with
  | .idle, _ => 0
  | .run, .enc => s.rnd.val
  | .run, .dec => 7 - s.rnd.val
  | .done, _ => Config.numRounds

/-- In DONE the round index stands at the last index of the direction (10_state.md R39 (d)). -/
def State.Inv (s : State) : Prop := s.phase = .done → s.rnd = lastIndex s.mode

/-- `s` is inside the command `(op, key, block)`: started, not yet taken or reset, with the registers the rounds so far
leave (10_state.md R39; 43_encrypt.md R134; 44_decrypt.md R149). -/
def State.InCommand (op : Op) (key : Key) (block : Block) (s : State) : Prop :=
  s.phase ≠ .idle ∧ s.mode = op ∧ s.key = key ∧ s.Inv ∧ (s.l, s.r) = halvesAfter op key block s.roundsRun

/-- The host asserts `rst` in none of what it has still to do. -/
def NoReset : List HostAct → Prop
  | [] => True
  | .drive p :: rest => p.rst = false ∧ NoReset rest
  | .command _ :: rest => NoReset rest

/-- The ports of a host that offers a command and asserts nothing else (30_encoding.md R80, START). -/
def Ports.startOf (op : Op) (key : Key) (block : Block) : Ports :=
  { rst := false, cmdValid := true, rspTake := false, cmdOp := op, cmdKey := key, cmdBlock := block }

/-- The ports of a host that takes the response and asserts nothing else (30_encoding.md R80, TAKE). -/
def Ports.takeOnly : Ports := { Ports.undriven with rspTake := true }

/-- The ports of a host that resets and asserts nothing else (30_encoding.md R80, RESET). -/
def Ports.resetOnly : Ports := { Ports.undriven with rst := true }

/-- A command at the level of steps: the offer for one state, nothing for eight, the take for one (R81). -/
def commandDrives (op : Op) (key : Key) (block : Block) : List HostAct :=
  .drive (.startOf op key block) :: (List.replicate 8 (.drive .undriven) ++ [.drive .takeOnly])

/-- The host has no further command to offer; it may still wait, take early or reset (45_sequencing_and_host.md R172). -/
def NoOffer (h : List HostAct) : Prop := ∀ a ∈ h, a.offers = false

/-- A final state: the engine is IDLE and the host has no further command to offer (R172). -/
def State.isFinal (s : State) : Prop := s.phase = .idle ∧ NoOffer s.host

/-- Instructions run one after another, stopping at the first that does not answer a next state. -/
def runInstrs : List Instr → State → Host.Outcome State Fault Refusal
  | [], s => .next s
  | i :: rest, s =>
    match exec i s with
    | .next t => runInstrs rest t
    | .fault r => .fault r
    | .refused r => .refused r

/-- A run of any length from `s` stops nowhere: no fault and no refusal (60_exceptions.md R190). -/
def SafeRun (s : State) : Prop := ∀ k, ∃ t, Sys2Proof.core.run k s = .next t

end Sys2Proof.Machine
end

