-- ==== Sys2Proof/Certificates/Slice0/Obligations.lean ====
section
/-! DEFINITION. The statements for the provers, in the order of OBLIGATIONS.json. -/

open Sys2Proof Sys2Proof.Machine

/-! ## Encodings and step selection -/

/-- 30_encoding.md R71 to R73, R82: decoding what the encoder writes gives the instruction back, every operand at every value. -/
def Obligations.DecodeOfEncodeIsTheInstruction : Prop :=
  ∀ i : Instr, i.wellFormed = true → decode (encode i) = .ok i

/-- 30_encoding.md R71, R72, R77: a CMD word is `{op, key, block}`; its top bit alone chooses the command, and encoding the
decoded command gives back the word, all 129 bits of it. -/
def Obligations.CommandWordsDecodeByTheirTopBit : Prop :=
  ∀ w : BitVec 129,
    decode (.cmd w) =
        .ok (if w.getLsbD 128 then .dec (w.extractLsb' 64 64) (w.extractLsb' 0 64)
          else .enc (w.extractLsb' 64 64) (w.extractLsb' 0 64)) ∧
      encode (decodeCmd w) = .cmd w

/-- 30_encoding.md R73: the EVT table. A row's masked bits select its step, START with the operands on the command ports;
the rows are exclusive; where the phase is 0, 1 or 2 and no row matches no step is selected. -/
def Obligations.EventWordsSelectTheTabledStep : Prop :=
  ∀ (e : BitVec 5) (w : BitVec 129),
    (e &&& 0b10000#5 = 0b10000#5 → decode (.evt e w) = .ok .reset) ∧
    (e &&& 0b11011#5 = 0b01000#5 →
      decode (.evt e w) = .ok (.start (if w.getLsbD 128 then .dec else .enc) (w.extractLsb' 64 64) (w.extractLsb' 0 64))) ∧
    (e &&& 0b10011#5 = 0b00001#5 → decode (.evt e w) = .ok .round) ∧
    (e &&& 0b10111#5 = 0b00110#5 → decode (.evt e w) = .ok .take) ∧
    (e &&& 0b10000#5 ≠ 0b10000#5 ∧ e &&& 0b11011#5 ≠ 0b01000#5 ∧ e &&& 0b10011#5 ≠ 0b00001#5 ∧
        e &&& 0b10111#5 ≠ 0b00110#5 ∧ e &&& 0b00011#5 ≠ 0b00011#5 → decode (.evt e w) = .error .noStep) ∧
    (e &&& 0b10000#5 ≠ 0b10000#5 ∧ e &&& 0b00011#5 = 0b00011#5 → decode (.evt e w) = .error .phaseThree)

/-- A few words written out from 30_encoding.md R71 to R73 and R82. -/
def Obligations.WrittenOutWordsDecode : Prop :=
  decode (.cmd 0x000000000000000010000000000000000#129) = .ok (.enc 0x0000000000000001 0x0000000000000000) ∧
  decode (.cmd 0x10123456789ABCDEFA6082831D8401310#129) = .ok (.dec 0x0123456789ABCDEF 0xA6082831D8401310) ∧
  decode (.evt 0b10000#5 0#129) = .ok .reset ∧
  decode (.evt 0b01100#5 0x10123456789ABCDEFA6082831D8401310#129) =
    .ok (.start .dec 0x0123456789ABCDEF 0xA6082831D8401310) ∧
  decode (.evt 0b01101#5 0#129) = .ok .round ∧
  decode (.evt 0b01110#5 0#129) = .ok .take ∧
  decode (.evt 0b01010#5 0#129) = .error .noStep

/-- The model's interface (notes/assumptions/6.md, 12.md): from every state, a placed word that names an instruction is the
next step's instruction. -/
def Obligations.PlacedWordIsTheNextInstruction : Prop :=
  ∀ (s : State) (nbits w : Nat) (i : Instr),
    decodeTableWord nbits w = some i → (s.withFetchWord nbits w).fetch = .ok i

/-! ## Primitives, round function, subkey schedule -/

/-- 40_primitives.md R91 to R96: the rotations, bit by bit, for every amount, which is taken modulo the width. -/
def Obligations.RotationsMoveEveryBit : Prop :=
  (∀ (x : Half) (n i : Nat), i < 32 → (rotl32 x n).getLsbD i = x.getLsbD ((i + (32 - n % 32)) % 32)) ∧
  (∀ (x : Half) (n i : Nat), i < 32 → (rotr32 x n).getLsbD i = x.getLsbD ((i + n % 32) % 32)) ∧
  (∀ (x : Key) (n i : Nat), i < 64 → (rotr64 x n).getLsbD i = x.getLsbD ((i + n % 64) % 64))

/-- 40_primitives.md R103 (a) to (e): the laws of the rotations. -/
def Obligations.RotationLaws : Prop :=
  (∀ (x : Half) (a : Nat), rotr32 (rotl32 x a) a = x ∧ rotl32 (rotr32 x a) a = x) ∧
  (∀ a : Nat, Function.Bijective (fun x : Half => rotl32 x a) ∧ Function.Bijective (fun x : Half => rotr32 x a) ∧
    Function.Bijective (fun x : Key => rotr64 x a)) ∧
  (∀ (x : Half) (a : Nat), rotl32 x a = rotr32 x ((32 - a % 32) % 32)) ∧
  (∀ h : Half, rotl32 h 9 = rotr32 h 23) ∧
  (∀ (y : Key) (a b : Nat), rotr64 (rotr64 y a) b = rotr64 y (a + b)) ∧
  (∀ (y : Key) (i : Nat), (fun k => rotr64 k 3)^[i] y = rotr64 y (3 * i)) ∧
  (∀ (x : Half) (a : Nat), rotl32 (not32 x) a = not32 (rotl32 x a) ∧ rotr32 (not32 x) a = not32 (rotr32 x a)) ∧
  (∀ (y : Key) (a : Nat), rotr64 (~~~y) a = ~~~(rotr64 y a)) ∧
  (∀ (x y : Half) (a : Nat), rotl32 (xor32 x y) a = xor32 (rotl32 x a) (rotl32 y a) ∧
    rotr32 (xor32 x y) a = xor32 (rotr32 x a) (rotr32 y a)) ∧
  (∀ (x y : Half) (a : Nat), rotl32 (and32 x y) a = and32 (rotl32 x a) (rotl32 y a) ∧
    rotr32 (and32 x y) a = and32 (rotr32 x a) (rotr32 y a)) ∧
  (∀ (x y : Key) (a : Nat), rotr64 (x ^^^ y) a = rotr64 x a ^^^ rotr64 y a ∧
    rotr64 (x &&& y) a = rotr64 x a &&& rotr64 y a)

/-- 41_round_function.md R110 and 42_subkey_schedule.md R120: F and SK, bit by bit. -/
def Obligations.RoundFunctionAndSubkeyBits : Prop :=
  (∀ (h : Half) (k : Subkey) (i : Nat), i < 32 →
    (roundFunction h k).getLsbD i =
      ((h.getLsbD ((i + 23) % 32)) ^^ !(k.getLsbD ((i + 11) % 32) && h.getLsbD i))) ∧
  (∀ (key : Key) (i : Index) (j : Nat), j < 32 → (subkey key i).getLsbD j = key.getLsbD ((j + 3 * i.val) % 64))

/-- 41_round_function.md R114 (a) to (e), with what (a) explains: key 1 and key 0 encrypt the zero block alike. -/
def Obligations.RoundFunctionIdentities : Prop :=
  (∀ k : Subkey, roundFunction 0x00000000 k = 0xFFFFFFFF) ∧
  (∀ k : Subkey, roundFunction 0xFFFFFFFF k = rotr32 k 11) ∧
  (∀ h : Half, roundFunction h 0x00000000 = not32 (rotl32 h 9)) ∧
  (∀ h : Half, roundFunction h 0xFFFFFFFF = xor32 (rotl32 h 9) (not32 h)) ∧
  (¬ Function.Injective (fun h : Half => roundFunction h 0xFFFFFFFF)) ∧
  roundFunction 0x00000000 0xFFFFFFFF = 0xFFFFFFFF ∧ roundFunction 0xFFFFFFFF 0xFFFFFFFF = 0xFFFFFFFF ∧
  encrypt 0x0000000000000000 0x0000000000000001 = encrypt 0x0000000000000000 0x0000000000000000

/-- 42_subkey_schedule.md R122: a subkey is 32 consecutive key bits, the same a logical shift gives, and so the eleven top
key bits reach no result. -/
def Obligations.SubkeysAreKeySlices : Prop :=
  (∀ (key : Key) (i : Index), subkey key i = key.extractLsb' (3 * i.val) 32) ∧
  (∀ (key : Key) (i : Index), subkey key i = trunc32 (key >>> (3 * i.val))) ∧
  (∀ (key key' : Key), (∀ j, j < 53 → key.getLsbD j = key'.getLsbD j) →
    (∀ i : Index, subkey key i = subkey key' i) ∧
    ∀ block : Block, encrypt block key = encrypt block key' ∧ decrypt block key = decrypt block key')

/-! ## The transformations -/

/-- 44_decrypt.md R148: a decrypt round and an encrypt round with the same subkey undo each other. -/
def Obligations.RoundsWithOneSubkeyUndoEachOther : Prop :=
  ∀ (k : Subkey) (p : Half × Half), decRound k (encRound k p) = p ∧ encRound k (decRound k p) = p

/-- 44_decrypt.md R150: the inverse law. -/
def Obligations.DecryptInvertsEncrypt : Prop :=
  ∀ (block : Block) (key : Key), decrypt (encrypt block key) key = block

/-- 44_decrypt.md R151 and 43_encrypt.md R138: the law in the other direction, and the bijections. -/
def Obligations.EncryptInvertsDecryptAndBothAreBijections : Prop :=
  (∀ (c : Block) (k : Key), encrypt (decrypt c k) k = c) ∧
  (∀ k : Key, Function.Bijective (fun b : Block => encrypt b k) ∧ Function.Bijective (fun b : Block => decrypt b k)) ∧
  (∀ k : Key, Function.LeftInverse (fun b : Block => decrypt b k) (fun b : Block => encrypt b k) ∧
    Function.RightInverse (fun b : Block => decrypt b k) (fun b : Block => encrypt b k))

/-- 43_encrypt.md R135: ENC as a recurrence. -/
def Obligations.EncryptIsTheRecurrence : Prop :=
  ∀ (block : Block) (key : Key) (left right : Nat → Half),
    left 0 = highHalf block → right 0 = lowHalf block →
    (∀ i : Index, left (i.val + 1) = right i.val ∧
      right (i.val + 1) = xor32 (left i.val) (roundFunction (right i.val) (subkey key i))) →
    encrypt block key = joinHalves (right 8) (left 8) ∧
    encrypt block key = joinHalves (xor32 (left 7) (roundFunction (right 7) (subkey key 7))) (right 7)

/-- 44_decrypt.md R152: DEC is the text of ENC with the round indices in reverse order. -/
def Obligations.DecryptIsEncryptWithReversedSubkeys : Prop :=
  ∀ (block : Block) (key : Key),
    decrypt block key =
      (let p := ([7, 6, 5, 4, 3, 2, 1, 0] : List Index).foldl (fun p i => encRound (subkey key i) p)
        (highHalf block, lowHalf block)
      joinHalves p.2 p.1)

/-- 44_decrypt.md R155: keys whose subkeys read the same in both orders, examples of them, and a key for which the two
transformations differ. -/
def Obligations.PalindromicKeysMakeDecryptEncrypt : Prop :=
  (∀ key : Key, (∀ i : Index, i.val ≤ 3 → subkey key i = subkey key (7 - i)) →
    ∀ block : Block, encrypt block key = decrypt block key ∧ encrypt (encrypt block key) key = block) ∧
  (∀ key : Key,
    ((∀ j, j < 53 → key.getLsbD j = false) ∨ (∀ j, j < 53 → key.getLsbD j = true)) →
    ∀ i : Index, subkey key i = subkey key (7 - i)) ∧
  (∀ i : Index, subkey 0 i = 0x00000000 ∧ subkey 0xFFFFFFFFFFFFFFFF i = 0xFFFFFFFF) ∧
  encrypt 0x0000000000000001 0 = 0x004001117FFFFFFF ∧ decrypt 0x0000000000000001 0 = 0x004001117FFFFFFF ∧
  encrypt 0xFEDCBA9876543210 0 = 0xBC56CB2171FD42CE ∧
  encrypt (encrypt 0xFEDCBA9876543210 0) 0 = 0xFEDCBA9876543210 ∧
  encrypt 0 0x0000000000000001 = 0x00000000FFFFFFFF ∧ decrypt 0 0x0000000000000001 = 0x00200000FFFFFFFF

/-- 43_encrypt.md R137: key sensitivity is existential, and not universal (42_subkey_schedule.md R122). -/
def Obligations.SomeBlockTellsSomeKeysApart : Prop :=
  (∃ (block : Block) (key1 key2 : Key), key1 ≠ key2 ∧ encrypt block key1 ≠ encrypt block key2) ∧
  (∃ (key1 key2 : Key), key1 ≠ key2 ∧ ∀ block : Block, encrypt block key1 = encrypt block key2)

/-! ## Records -/

/-- 20_memory.md R51, R52: lane j is bits 8j to 8j+7, and packing and unpacking undo each other. -/
def Obligations.PackAndUnpackUndoEachOther : Prop :=
  (∀ b : Record, unpack (pack b) = b) ∧ (∀ v : Block, pack (unpack v) = v) ∧
  (∀ (v : Block) (j : Fin 8), (unpack v)[j] = v.extractLsb' (8 * j.val) 8) ∧
  unpack 0xA6082831D8401310 = #v[0x10, 0x13, 0x40, 0xD8, 0x31, 0x28, 0x08, 0xA6]

/-- 20_memory.md R53 and 00_scope.md R12: the whole record, and the halves START loads, as reads of a record. -/
def Obligations.RecordReadsGiveBlockAndHalves : Prop :=
  ∀ b : Record,
    memRead b 0 8 = some (pack b) ∧ (∀ v : Block, memWrite b 0 8 v = some (unpack v)) ∧
    memRead b 4 4 = some ((loadHalves .enc (pack b)).1.setWidth 64) ∧
    memRead b 0 4 = some ((loadHalves .enc (pack b)).2.setWidth 64) ∧
    memRead b 0 4 = some ((loadHalves .dec (pack b)).1.setWidth 64) ∧
    memRead b 4 4 = some ((loadHalves .dec (pack b)).2.setWidth 64)

/-- 00_scope.md R12: a write to a record sets the bytes it names and no other. -/
def Obligations.RecordWritesSetTheirBytesOnly : Prop :=
  ∀ (b : Record) (a n : Nat) (v : Block), a + n ≤ 8 →
    ∃ out, memWrite b a n v = some out ∧
      ∀ j : Fin 8, (a ≤ j.val ∧ j.val < a + n → out[j] = v.extractLsb' (8 * (j.val - a)) 8) ∧
        (¬ (a ≤ j.val ∧ j.val < a + n) → out[j] = b[j])

/-- 46_block_stream_boundary.md R187, the engine's share: record by record, decryption recovers the record. -/
def Obligations.RecordsSurviveTheRoundTrip : Prop :=
  ∀ (b : Record) (k : Key), unpack (decrypt (encrypt (pack b) k) k) = b

/-! ## The instructions -/

/-- 70_reset_and_hazards.md R210, R211: RESET answers in every state; PHASE is IDLE, and what the other five registers then
hold is the model's free value (notes/assumptions/3.md), which depends on nothing they held; nothing is delivered. -/
def Obligations.ResetGoesIdleFromEveryState : Prop :=
  ∀ s : State, ∃ t, exec .reset s = .next t ∧ t.phase = .idle ∧
    t.key = Config.resetKey s.resets ∧ t.l = Config.resetL s.resets ∧ t.r = Config.resetR s.resets ∧
    t.rnd = Config.resetRnd s.resets ∧ t.mode = Config.resetMode s.resets ∧
    t.cmdReady = true ∧ t.busy = false ∧ t.rspValid = false ∧ t.rspBlock = none ∧
    t.host = s.host ∧ t.delivered = s.delivered ∧ t.resets = s.resets + 1

/-- 45_sequencing_and_host.md R163, 43_encrypt.md R131, 44_decrypt.md R146: START in IDLE writes all six registers from its
operands; the ports that select it run it. -/
def Obligations.StartLoadsTheCommand : Prop :=
  ∀ (s : State) (op : Op) (key : Key) (block : Block), s.phase = .idle →
    ∃ t, exec (.start op key block) s = .next t ∧ t.key = key ∧ t.mode = op ∧ t.phase = .run ∧
      (op = .enc → t.l = block.extractLsb' 32 32 ∧ t.r = block.extractLsb' 0 32 ∧ t.rnd = 0) ∧
      (op = .dec → t.l = block.extractLsb' 0 32 ∧ t.r = block.extractLsb' 32 32 ∧ t.rnd = 7) ∧
      t.cmdReady = false ∧ t.busy = true ∧ t.rspValid = false ∧
      t.host = s.host ∧ t.delivered = s.delivered ∧ t.resets = s.resets ∧
      ∀ (p : Ports) (rest : List HostAct), s.host = .drive p :: rest → p.rst = false → p.cmdValid = true →
        p.cmdOp = op → p.cmdKey = key → p.cmdBlock = block → step s = .next (t.withHost rest)

/-- 45_sequencing_and_host.md R166, R167, 43_encrypt.md R132, 44_decrypt.md R147: ROUND in RUN computes one round of MODE
from the old registers and sequences RND and PHASE; it writes nothing else, and needs nothing of the host but `rst` = 0. -/
def Obligations.RoundComputesAndSequences : Prop :=
  ∀ s : State, s.phase = .run →
    ∃ t, exec .round s = .next t ∧
      (s.mode = .enc → t.l = s.r ∧ t.r = xor32 s.l (roundFunction s.r (subkey s.key s.rnd)) ∧
        (s.rnd = 7 → t.rnd = 7 ∧ t.phase = .done) ∧
        (s.rnd ≠ 7 → t.rnd.val = s.rnd.val + 1 ∧ t.phase = .run)) ∧
      (s.mode = .dec → t.r = s.l ∧ t.l = xor32 s.r (roundFunction s.l (subkey s.key s.rnd)) ∧
        (s.rnd = 0 → t.rnd = 0 ∧ t.phase = .done) ∧
        (s.rnd ≠ 0 → t.rnd.val = s.rnd.val - 1 ∧ t.phase = .run)) ∧
      t.key = s.key ∧ t.mode = s.mode ∧
      t.host = s.host ∧ t.delivered = s.delivered ∧ t.resets = s.resets ∧
      (s.ports.rst = false → step s = .next (t.withHost s.hostAfter))

/-- 45_sequencing_and_host.md R170, 10_state.md R34: TAKE in DONE delivers the response block and writes PHASE alone. -/
def Obligations.TakeDeliversTheResponse : Prop :=
  ∀ s : State, s.phase = .done →
    ∃ t, exec .take s = .next t ∧ t.phase = .idle ∧
      (s.mode = .enc → t.delivered = s.delivered ++ [joinHalves s.r s.l]) ∧
      (s.mode = .dec → t.delivered = s.delivered ++ [joinHalves s.l s.r]) ∧
      t.key = s.key ∧ t.l = s.l ∧ t.r = s.r ∧ t.rnd = s.rnd ∧ t.mode = s.mode ∧
      t.cmdReady = true ∧ t.busy = false ∧ t.rspValid = false ∧ t.rspBlock = none ∧
      t.host = s.host ∧ t.resets = s.resets ∧
      ∀ (p : Ports) (rest : List HostAct), s.host = .drive p :: rest → p.rst = false → p.rspTake = true →
        step s = .next (t.withHost rest)

/-- The command ENC in IDLE delivers ENC(block, key) of 43_encrypt.md R130 and leaves the registers as its ten steps do;
that the whole command is one step is the model's choice, notes/assumptions/2.md. -/
def Obligations.EncCommandDeliversEncrypt : Prop :=
  ∀ (s : State) (key : Key) (block : Block), s.phase = .idle →
    ∃ t, exec (.enc key block) s = .next t ∧ t.delivered = s.delivered ++ [encrypt block key] ∧
      t.phase = .idle ∧ t.mode = .enc ∧ t.key = key ∧ t.rnd = 7 ∧ joinHalves t.r t.l = encrypt block key ∧
      t.host = s.host ∧ t.resets = s.resets

/-- The command DEC in IDLE delivers DEC(block, key) of 44_decrypt.md R145 and leaves the registers as its ten steps do;
that the whole command is one step is the model's choice, notes/assumptions/2.md. -/
def Obligations.DecCommandDeliversDecrypt : Prop :=
  ∀ (s : State) (key : Key) (block : Block), s.phase = .idle →
    ∃ t, exec (.dec key block) s = .next t ∧ t.delivered = s.delivered ++ [decrypt block key] ∧
      t.phase = .idle ∧ t.mode = .dec ∧ t.key = key ∧ t.rnd = 0 ∧ joinHalves t.l t.r = decrypt block key ∧
      t.host = s.host ∧ t.resets = s.resets

/-- 45_sequencing_and_host.md R161, R164, R171: where its phase does not hold a step does not exist; it changes nothing. -/
def Obligations.StepsNotEnabledChangeNothing : Prop :=
  ∀ (s : State) (op : Op) (key : Key) (block : Block),
    (s.phase ≠ .idle → exec (.start op key block) s = .next s ∧ exec (.enc key block) s = .next s ∧
      exec (.dec key block) s = .next s) ∧
    (s.phase ≠ .run → exec .round s = .next s) ∧
    (s.phase ≠ .done → exec .take s = .next s)

/-- The frame of every instruction, enabled or not: who may write which register (10_state.md R21 to R26), who delivers
(R170), and that none but RESET draws free values. -/
def Obligations.FrameOfEveryInstruction : Prop :=
  ∀ (i : Instr) (s t : State), exec i s = .next t →
    t.host = s.host ∧ (i ≠ .reset → t.resets = s.resets) ∧
    (i = .round ∨ i = .take → t.key = s.key ∧ t.mode = s.mode) ∧
    (i = .take → t.l = s.l ∧ t.r = s.r ∧ t.rnd = s.rnd) ∧
    (i = .reset ∨ i = .round ∨ (∃ op key block, i = .start op key block) → t.delivered = s.delivered) ∧
    (t.delivered = s.delivered ∨ ∃ v, t.delivered = s.delivered ++ [v])

/-- 10_state.md R29, R34: exactly one status output is 1, and `rsp_block` has a value just in DONE. -/
def Obligations.OutputsFollowThePhase : Prop :=
  ∀ s : State,
    ((s.cmdReady = true ∧ s.busy = false ∧ s.rspValid = false) ∨
      (s.cmdReady = false ∧ s.busy = true ∧ s.rspValid = false) ∨
      (s.cmdReady = false ∧ s.busy = false ∧ s.rspValid = true)) ∧
    (s.cmdReady = true ↔ s.phase = .idle) ∧ (s.busy = true ↔ s.phase = .run) ∧ (s.rspValid = true ↔ s.phase = .done) ∧
    (s.phase = .done → s.rspBlock =
      some (match s.mode with
        | .enc => joinHalves s.r s.l
        | .dec => joinHalves s.l s.r)) ∧
    (s.phase ≠ .done → s.rspBlock = none)

/-! ## The step -/

/-- A step runs the instruction of its state, and the host moves on; where there is none only the host moves on. -/
def Obligations.StepRunsTheDecodedInstruction : Prop :=
  ∀ s : State,
    (∀ i : Instr, s.fetch = .ok i → i.wellFormed = true → step s = moveHost s.hostAfter (exec i s)) ∧
    (∀ r : Reject, s.fetch = .error r → step s = .next (s.withHost s.hostAfter)) ∧
    (∀ (p : Ports) (rest : List HostAct), s.host = .drive p :: rest →
      s.fetch = decode (.evt (p.evt s.phase) p.cmd) ∧ s.hostAfter = rest) ∧
    (∀ (w : BitVec 129) (rest : List HostAct), s.host = .command w :: rest → s.phase = .idle →
      s.fetch = decode (.cmd w) ∧ s.hostAfter = rest)

/-- 60_exceptions.md R190: there is no fault to raise, and from every state every run answers a next state: never a fault
and never a refusal. -/
def Obligations.EveryRunIsSafe : Prop :=
  (Fault → False) ∧ ∀ s : State, SafeRun s

/-- 60_exceptions.md R196: `rst` wins in every phase, whatever else is asserted; and without it no two rows match. -/
def Obligations.ResetWins : Prop :=
  (∀ (s : State) (p : Ports) (rest : List HostAct), s.host = .drive p :: rest → p.rst = true →
    ∃ t, exec .reset s = .next t ∧ step s = .next (t.withHost rest)) ∧
  (∀ e : BitVec 5, isReset e = false →
    (isStart e = false ∨ isRound e = false) ∧ (isStart e = false ∨ isTake e = false) ∧
    (isRound e = false ∨ isTake e = false))

/-- 60_exceptions.md R197: `cmd_valid` and `rsp_take` together. -/
def Obligations.OfferAndTakeTogether : Prop :=
  ∀ (s : State) (p : Ports) (rest : List HostAct), s.host = .drive p :: rest → p.rst = false → p.cmdValid = true →
    p.rspTake = true →
    (s.phase = .done → ∃ t, exec .take s = .next t ∧ step s = .next (t.withHost rest) ∧
      ∀ (q : Ports) (rest' : List HostAct), rest = .drive q :: rest' → q.rst = false → q.cmdValid = true →
        ∃ u, exec (.start q.cmdOp q.cmdKey q.cmdBlock) t = .next u ∧
          step (t.withHost rest) = .next (u.withHost rest') ∧ u.phase = .run) ∧
    (s.phase = .idle → ∃ t, exec (.start p.cmdOp p.cmdKey p.cmdBlock) s = .next t ∧ step s = .next (t.withHost rest)) ∧
    (s.phase = .run → ∃ t, exec .round s = .next t ∧ step s = .next (t.withHost rest))

/-- 45_sequencing_and_host.md R164, R165, R171: inputs that select no step are ignored: in RUN all but `rst`, in DONE all
but `rst` and `rsp_take`, in IDLE without an offer all but `rst`, and in IDLE with one `rsp_take`. -/
def Obligations.UnselectedInputsAreIgnored : Prop :=
  ∀ (s : State) (p q : Ports) (rest : List HostAct), p.rst = false → q.rst = false →
    (s.phase = .run ∨ (s.phase = .done ∧ p.rspTake = q.rspTake) ∨
      (s.phase = .idle ∧ p.cmdValid = false ∧ q.cmdValid = false) ∨
      (s.phase = .idle ∧ p.cmdValid = true ∧ q = { p with rspTake := q.rspTake })) →
    step (s.withHost (.drive p :: rest)) = step (s.withHost (.drive q :: rest))

/-- 45_sequencing_and_host.md R164: a command offered while the engine is not IDLE is held: the offer stays up, the rounds
go on, and in DONE a host that only offers makes no progress (the offer is a whole command of notes/assumptions/2.md). -/
def Obligations.HeldCommandWaits : Prop :=
  ∀ (s : State) (w : BitVec 129) (rest : List HostAct), s.host = .command w :: rest →
    (s.phase = .run → ∃ t, exec .round s = .next t ∧ step s = .next t ∧ t.host = s.host) ∧
    (s.phase = .done → ∀ k, Sys2Proof.core.run k s = .next s)

/-- 10_state.md R28: the transitions of PHASE, complete, for every step that is not a whole command. -/
def Obligations.PhaseTransitions : Prop :=
  ∀ s t : State, (∀ w rest, s.host = .command w :: rest → s.phase ≠ .idle) → step s = .next t →
    (s.ports.rst = true → t.phase = .idle) ∧
    (s.ports.rst = false →
      (s.phase = .idle → (s.ports.cmdValid = true → t.phase = .run) ∧ (s.ports.cmdValid = false → t.phase = .idle)) ∧
      (s.phase = .run → (s.rnd ≠ lastIndex s.mode → t.phase = .run) ∧ (s.rnd = lastIndex s.mode → t.phase = .done)) ∧
      (s.phase = .done → (s.ports.rspTake = true → t.phase = .idle) ∧ (s.ports.rspTake = false → t.phase = .done)))

/-- 10_state.md R21, R25, 45_sequencing_and_host.md R165: inside a command no step but RESET changes KEY or MODE, whatever
the host does. -/
def Obligations.KeyAndModeAreFixedInsideACommand : Prop :=
  ∀ s t : State, s.phase ≠ .idle → s.ports.rst = false → step s = .next t → t.key = s.key ∧ t.mode = s.mode

/-- 45_sequencing_and_host.md R170, 70_reset_and_hazards.md R216: a block reaches the host only as the response of DONE when
it is taken, or as the result of a whole command begun in IDLE (one step by the model's choice, notes/assumptions/2.md). -/
def Obligations.OnlyResponsesAreDelivered : Prop :=
  ∀ s t : State, step s = .next t →
    t.delivered = s.delivered ∨
    (∃ v, t.delivered = s.delivered ++ [v] ∧ t.phase = .idle ∧ s.phase = .done ∧ s.ports.rst = false ∧
      s.ports.rspTake = true ∧ s.rspBlock = some v) ∨
    (∃ op key block rest, s.host = .command (cmdWord op key block) :: rest ∧ s.phase = .idle ∧ t.phase = .idle ∧
      t.delivered = s.delivered ++ [transform op block key])

/-! ## Runs, invariants and refinement -/

/-- 10_state.md R39 (d): in DONE the round index stands at the last index of the direction; every step keeps this. -/
def Obligations.EveryStepKeepsTheRoundIndexInvariant : Prop :=
  ∀ s t : State, s.Inv → step s = .next t → t.Inv

/-- The invariant holds right after reset. -/
def Obligations.ResetStateMeetsTheInvariant : Prop :=
  State.reset.Inv ∧ State.reset.phase = .idle

/-- 10_state.md R39, 43_encrypt.md R134, 44_decrypt.md R149: START puts the machine inside its command, and from there, whatever
the host does, a step keeps it there with nothing delivered, or is a TAKE that delivers exactly the transformation of the
operands START sampled, or is a RESET after which nothing is delivered. -/
def Obligations.EveryStepKeepsTheCommandInvariant : Prop :=
  (∀ (s : State) (op : Op) (key : Key) (block : Block), s.phase = .idle →
    ∃ t, exec (.start op key block) s = .next t ∧ t.InCommand op key block ∧ t.roundsRun = 0) ∧
  (∀ (s t : State) (op : Op) (key : Key) (block : Block), s.InCommand op key block → step s = .next t →
    (t.InCommand op key block ∧ t.delivered = s.delivered ∧
      t.roundsRun = min 8 (s.roundsRun + 1)) ∨
    (s.phase = .done ∧ t.phase = .idle ∧ t.delivered = s.delivered ++ [transform op block key]) ∨
    (s.ports.rst = true ∧ t.phase = .idle ∧ t.delivered = s.delivered))

/-- 43_encrypt.md R134, 44_decrypt.md R149, 45_sequencing_and_host.md R169: after START and k rounds the registers hold the
loop's variables after k iterations; after eight the response is the transformation, and a ninth ROUND is not enabled. -/
def Obligations.EightRoundsComputeTheTransformation : Prop :=
  ∀ (s : State) (op : Op) (key : Key) (block : Block) (k : Nat), s.phase = .idle → k ≤ 8 →
    ∃ t, runInstrs (.start op key block :: List.replicate k .round) s = .next t ∧
      t.key = key ∧ t.mode = op ∧ (t.l, t.r) = halvesAfter op key block k ∧
      (k < 8 → t.phase = .run ∧ t.rnd.val = (match op with
        | .enc => k
        | .dec => 7 - k)) ∧
      (k = 8 → t.phase = .done ∧ t.rspBlock = some (transform op block key) ∧ exec .round t = .next t)

/-- 70_reset_and_hazards.md R221, 45_sequencing_and_host.md R169: a started command finishes: with any host that does not
reset, RUN lasts exactly as many more steps as rounds are missing, and then the phase is DONE. That every state in RUN takes
its ROUND is the weak fairness the spec assumes (notes/assumptions/9.md). -/
def Obligations.StartedCommandFinishes : Prop :=
  ∀ s : State, s.phase = .run → NoReset s.host →
    (∃ t, Sys2Proof.core.run (8 - s.roundsRun) s = .next t ∧ t.phase = .done) ∧
    ∀ j, j < 8 - s.roundsRun → ∃ u, Sys2Proof.core.run j s = .next u ∧ u.phase = .run

/-- 30_encoding.md R81, 70_reset_and_hazards.md R222: a whole command in one model step is the ten steps START, eight ROUND,
TAKE of the step-level machine, register for register; this is what makes the choice of notes/assumptions/2.md harmless. -/
def Obligations.CommandIsTenSteps : Prop :=
  ∀ (s : State) (op : Op) (key : Key) (block : Block) (rest : List HostAct), s.phase = .idle →
    Sys2Proof.core.run 10 (s.withHost (commandDrives op key block ++ rest)) =
      Sys2Proof.core.run 1 (s.withHost (.command (cmdWord op key block) :: rest))

/-- 20_memory.md R59, 46_block_stream_boundary.md R181: commands are carried out in order, each response a function of its own
operands only; the commands are the model's whole commands, notes/assumptions/2.md. -/
def Obligations.ResponsesComeInCommandOrder : Prop :=
  ∀ (cmds : List (Op × Key × Block)) (s : State) (rest : List HostAct), s.phase = .idle →
    ∃ t, Sys2Proof.core.run cmds.length
        (s.withHost (cmds.map (fun c => .command (cmdWord c.1 c.2.1 c.2.2)) ++ rest)) = .next t ∧
      t.delivered = s.delivered ++ cmds.map (fun c => transform c.1 c.2.2 c.2.1) ∧ t.phase = .idle ∧ t.host = rest ∧
      (t.isFinal ↔ NoOffer rest)

/-- 45_sequencing_and_host.md R175, 44_decrypt.md R150: ENC and then DEC of its result with the same key, on the machine,
delivers the original block; the commands are the model's whole commands, notes/assumptions/2.md. -/
def Obligations.MachineRoundTripRestoresTheBlock : Prop :=
  ∀ (s : State) (key : Key) (block : Block), s.phase = .idle →
    ∃ t u, exec (.enc key block) s = .next t ∧ exec (.dec key (encrypt block key)) t = .next u ∧
      u.delivered = s.delivered ++ [encrypt block key, block] ∧ u.phase = .idle

/-- 10_state.md R37: nothing carries over: what a command, a START or a RESET leaves depends on none of the five data
registers it finds. -/
def Obligations.NothingCarriesOverBetweenCommands : Prop :=
  ∀ s u : State, s.host = u.host → s.delivered = u.delivered → s.resets = u.resets →
    exec .reset s = exec .reset u ∧
    (s.phase = .idle → u.phase = .idle → ∀ (op : Op) (key : Key) (block : Block),
      exec (.start op key block) s = exec (.start op key block) u ∧
      exec (.enc key block) s = exec (.enc key block) u ∧ exec (.dec key block) s = exec (.dec key block) u)

/-- 70_reset_and_hazards.md R223, 45_sequencing_and_host.md R168: PHASE, MODE and RND after a step never depend on KEY, L or R. -/
def Obligations.SequencingIgnoresTheData : Prop :=
  ∀ s u s' u' : State, s.phase = u.phase → s.mode = u.mode → s.rnd = u.rnd → s.host = u.host → s.resets = u.resets →
    step s = .next s' → step u = .next u' →
    s'.phase = u'.phase ∧ s'.mode = u'.mode ∧ s'.rnd = u'.rnd ∧ s'.host = u'.host ∧ s'.resets = u'.resets

/-- 30_encoding.md R79 to R81: the pseudo-instruction is its expansion; `-> V` asserts the value taken; outside IDLE, or with
another value, the script describes no run. -/
def Obligations.ScriptCommandIsItsExpansion : Prop :=
  ∀ (s : State) (op : Op) (key : Key) (block v : Block),
    (s.phase = .idle →
      exec (match op with
        | .enc => .enc key block
        | .dec => .dec key block) s = .next (s.transact op key block) ∧
      runScript [.command op key block none] s = some (s.transact op key block) ∧
      runScript [.start op key block, .round 8, .take none] s = some (s.transact op key block) ∧
      runScript [.command op key block (some v)] s =
        (if v = transform op block key then some (s.transact op key block) else none)) ∧
    (s.phase ≠ .idle → runScript [.command op key block none] s = none)

/-- 60_exceptions.md R204, 20_memory.md R60 (d): a step of one instance is a step of it alone, and steps of two instances
commute. -/
def Obligations.InstancesShareNothing : Prop :=
  (∀ (k : Nat) (ss : List State) (s : State), ss[k]? = some s →
    ∃ t ts, step s = .next t ∧ stepInstance k ss = .next ts ∧ ts[k]? = some t ∧ ∀ j, j ≠ k → ts[j]? = ss[j]?) ∧
  (∀ (j k : Nat) (ss : List State), j ≠ k → runInstances [j, k] ss = runInstances [k, j] ss)

/-- 45_sequencing_and_host.md R172: in IDLE a host that only waits, takes early or resets leaves the state final; RUN and DONE
are not final; and from a final state every run stays final and delivers nothing more, its registers unchanged but by a RESET
(what is still to be offered is read off the model's host list, notes/assumptions/1.md). -/
def Obligations.FinalStatesStayFinal : Prop :=
  (∀ s : State, s.phase = .idle →
    (∀ a ∈ s.host, a = .drive .undriven ∨ a = .drive .takeOnly ∨ a = .drive .resetOnly) → s.isFinal) ∧
  (∀ s : State, s.phase = .run ∨ s.phase = .done → ¬ s.isFinal) ∧
  (∀ s t : State, s.isFinal → s.ports.rst = false → step s = .next t → t = s.withHost s.hostAfter) ∧
  (∀ (k : Nat) (s : State), s.isFinal →
    ∃ t, Sys2Proof.core.run k s = .next t ∧ t.isFinal ∧ t.delivered = s.delivered)
end

