-- ==== Sys2Proof/Laws/Decode.lean ====
section
/-! SUPPORT. The bits and the fields of a CMD word (30_encoding.md R71). -/

namespace Sys2Proof

/-- The three fields of a CMD word, bit by bit. -/
theorem getLsbD_cmdWord (op : Op) (key : Key) (block : Block) (i : Nat) :
    (cmdWord op key block).getLsbD i =
      if i < 64 then block.getLsbD i else if i < 128 then key.getLsbD (i - 64) else op.bit.getLsbD (i - 128) := by
  unfold cmdWord
  rw [BitVec.getLsbD_cast, BitVec.getLsbD_append, BitVec.getLsbD_append]
  by_cases h : i < 64
  · simp [h]
  · by_cases h2 : i < 128
    · have : i - 64 < 64 := by omega
      simp [h, h2, this]
    · have h3 : ¬ i - 64 < 64 := by omega
      have h4 : i - 64 - 64 = i - 128 := by omega
      simp [h, h2, h3, h4]

@[simp] theorem opField_cmdWord (op : Op) (key : Key) (block : Block) : opField (cmdWord op key block) = op := by
  have h : (cmdWord op key block).extractLsb' 128 1 = op.bit := by
    apply BitVec.eq_of_getLsbD_eq
    intro i hi
    have : ¬ 128 + i < 64 ∧ ¬ 128 + i < 128 := by omega
    simp [getLsbD_cmdWord, this, hi]
  unfold opField
  rw [h]
  cases op <;> rfl

@[simp] theorem keyField_cmdWord (op : Op) (key : Key) (block : Block) : keyField (cmdWord op key block) = key := by
  apply BitVec.eq_of_getLsbD_eq
  intro i hi
  have h : ¬ 64 + i < 64 ∧ 64 + i < 128 := by omega
  simp [keyField, getLsbD_cmdWord, hi, h]

@[simp] theorem blockField_cmdWord (op : Op) (key : Key) (block : Block) : blockField (cmdWord op key block) = block := by
  apply BitVec.eq_of_getLsbD_eq
  intro i hi
  simp [blockField, getLsbD_cmdWord, hi]

end Sys2Proof
end

