-- ==== Sys2Proof/Laws/Halves.lean ====
section
/-! SUPPORT. The halves of a block: cutting and joining undo each other (30_encoding.md R74). -/

namespace Sys2Proof.Machine

/-- A joined block, bit by bit. -/
theorem getLsbD_joinHalves (a b : Half) (i : Nat) :
    (joinHalves a b).getLsbD i = if i < 32 then b.getLsbD i else a.getLsbD (i - 32) := by
  unfold joinHalves
  rw [BitVec.getLsbD_cast, BitVec.getLsbD_append]

@[simp] theorem highHalf_joinHalves (a b : Half) : highHalf (joinHalves a b) = a := by
  apply BitVec.eq_of_getLsbD_eq
  intro i hi
  have h : ¬ 32 + i < 32 := by omega
  simp [highHalf, getLsbD_joinHalves, hi, h]

@[simp] theorem lowHalf_joinHalves (a b : Half) : lowHalf (joinHalves a b) = b := by
  apply BitVec.eq_of_getLsbD_eq
  intro i hi
  simp [lowHalf, getLsbD_joinHalves, hi]

@[simp] theorem joinHalves_high_low (v : Block) : joinHalves (highHalf v) (lowHalf v) = v := by
  apply BitVec.eq_of_getLsbD_eq
  intro i hi
  rw [getLsbD_joinHalves]
  by_cases h : i < 32
  · simp [h, lowHalf]
  · have h1 : i - 32 < 32 := by omega
    have h2 : 32 + (i - 32) = i := by omega
    simp [h, h1, h2, highHalf]

end Sys2Proof.Machine
end

