-- ==== Sys2Proof/Laws/State.lean ====
section
/-! SUPPORT. What each register-writing operation of Machine/Ops.lean does to each field, once and for all. -/

namespace Sys2Proof.Machine

@[simp] theorem State.load_phase (op : Op) (key : Key) (block : Block) (s : State) : (s.load op key block).phase = .run := rfl
@[simp] theorem State.load_mode (op : Op) (key : Key) (block : Block) (s : State) : (s.load op key block).mode = op := rfl
@[simp] theorem State.load_rnd (op : Op) (key : Key) (block : Block) (s : State) : (s.load op key block).rnd = firstIndex op := rfl
@[simp] theorem State.load_key (op : Op) (key : Key) (block : Block) (s : State) : (s.load op key block).key = key := rfl
@[simp] theorem State.load_l (op : Op) (key : Key) (block : Block) (s : State) : (s.load op key block).l = (loadHalves op block).1 := rfl
@[simp] theorem State.load_r (op : Op) (key : Key) (block : Block) (s : State) : (s.load op key block).r = (loadHalves op block).2 := rfl
@[simp] theorem State.load_host (op : Op) (key : Key) (block : Block) (s : State) : (s.load op key block).host = s.host := rfl
@[simp] theorem State.load_delivered (op : Op) (key : Key) (block : Block) (s : State) : (s.load op key block).delivered = s.delivered := rfl
@[simp] theorem State.load_resets (op : Op) (key : Key) (block : Block) (s : State) : (s.load op key block).resets = s.resets := rfl

@[simp] theorem State.advance_phase (s : State) : (s.advance).phase = s.newPhase := rfl
@[simp] theorem State.advance_mode (s : State) : (s.advance).mode = s.mode := rfl
@[simp] theorem State.advance_rnd (s : State) : (s.advance).rnd = s.newRnd := rfl
@[simp] theorem State.advance_key (s : State) : (s.advance).key = s.key := rfl
@[simp] theorem State.advance_l (s : State) : (s.advance).l = s.newHalves.1 := rfl
@[simp] theorem State.advance_r (s : State) : (s.advance).r = s.newHalves.2 := rfl
@[simp] theorem State.advance_host (s : State) : (s.advance).host = s.host := rfl
@[simp] theorem State.advance_delivered (s : State) : (s.advance).delivered = s.delivered := rfl
@[simp] theorem State.advance_resets (s : State) : (s.advance).resets = s.resets := rfl

@[simp] theorem State.deliver_phase (v : Block) (s : State) : (s.deliver v).phase = .idle := rfl
@[simp] theorem State.deliver_mode (v : Block) (s : State) : (s.deliver v).mode = s.mode := rfl
@[simp] theorem State.deliver_rnd (v : Block) (s : State) : (s.deliver v).rnd = s.rnd := rfl
@[simp] theorem State.deliver_key (v : Block) (s : State) : (s.deliver v).key = s.key := rfl
@[simp] theorem State.deliver_l (v : Block) (s : State) : (s.deliver v).l = s.l := rfl
@[simp] theorem State.deliver_r (v : Block) (s : State) : (s.deliver v).r = s.r := rfl
@[simp] theorem State.deliver_host (v : Block) (s : State) : (s.deliver v).host = s.host := rfl
@[simp] theorem State.deliver_delivered (v : Block) (s : State) : (s.deliver v).delivered = s.delivered ++ [v] := rfl
@[simp] theorem State.deliver_resets (v : Block) (s : State) : (s.deliver v).resets = s.resets := rfl

@[simp] theorem State.resetStep_phase (s : State) : (s.resetStep).phase = .idle := rfl
@[simp] theorem State.resetStep_mode (s : State) : (s.resetStep).mode = Config.resetMode s.resets := rfl
@[simp] theorem State.resetStep_rnd (s : State) : (s.resetStep).rnd = Config.resetRnd s.resets := rfl
@[simp] theorem State.resetStep_key (s : State) : (s.resetStep).key = Config.resetKey s.resets := rfl
@[simp] theorem State.resetStep_l (s : State) : (s.resetStep).l = Config.resetL s.resets := rfl
@[simp] theorem State.resetStep_r (s : State) : (s.resetStep).r = Config.resetR s.resets := rfl
@[simp] theorem State.resetStep_host (s : State) : (s.resetStep).host = s.host := rfl
@[simp] theorem State.resetStep_delivered (s : State) : (s.resetStep).delivered = s.delivered := rfl
@[simp] theorem State.resetStep_resets (s : State) : (s.resetStep).resets = s.resets + 1 := rfl

@[simp] theorem State.withHost_phase (h : List HostAct) (s : State) : (s.withHost h).phase = s.phase := rfl
@[simp] theorem State.withHost_mode (h : List HostAct) (s : State) : (s.withHost h).mode = s.mode := rfl
@[simp] theorem State.withHost_rnd (h : List HostAct) (s : State) : (s.withHost h).rnd = s.rnd := rfl
@[simp] theorem State.withHost_key (h : List HostAct) (s : State) : (s.withHost h).key = s.key := rfl
@[simp] theorem State.withHost_l (h : List HostAct) (s : State) : (s.withHost h).l = s.l := rfl
@[simp] theorem State.withHost_r (h : List HostAct) (s : State) : (s.withHost h).r = s.r := rfl
@[simp] theorem State.withHost_host (h : List HostAct) (s : State) : (s.withHost h).host = h := rfl
@[simp] theorem State.withHost_delivered (h : List HostAct) (s : State) : (s.withHost h).delivered = s.delivered := rfl
@[simp] theorem State.withHost_resets (h : List HostAct) (s : State) : (s.withHost h).resets = s.resets := rfl

end Sys2Proof.Machine
end

