-- ==== Sys2Proof/Laws/Ops.lean ====
section
/-! SUPPORT. What each shared operation can do: its effect in the phase that enables it, and nothing in any other
(45_sequencing_and_host.md R161). -/

namespace Sys2Proof.Machine

theorem State.startStep_idle {s : State} (h : s.phase = .idle) (op : Op) (key : Key) (block : Block) :
    s.startStep op key block = s.load op key block := if_pos h

theorem State.startStep_disabled {s : State} (h : s.phase ≠ .idle) (op : Op) (key : Key) (block : Block) :
    s.startStep op key block = s := if_neg h

theorem State.roundStep_run {s : State} (h : s.phase = .run) : s.roundStep = s.advance := if_pos h

theorem State.roundStep_disabled {s : State} (h : s.phase ≠ .run) : s.roundStep = s := if_neg h

theorem State.rspBlock_done {s : State} (h : s.phase = .done) :
    s.rspBlock = some (combine s.mode (s.l, s.r)) := if_pos h

theorem State.rspBlock_none {s : State} (h : s.phase ≠ .done) : s.rspBlock = none := if_neg h

theorem State.takeStep_done {s : State} (h : s.phase = .done) :
    s.takeStep = s.deliver (combine s.mode (s.l, s.r)) := by
  unfold State.takeStep
  rw [State.rspBlock_done h]

theorem State.takeStep_disabled {s : State} (h : s.phase ≠ .done) : s.takeStep = s := by
  unfold State.takeStep
  rw [State.rspBlock_none h]

theorem State.transact_idle {s : State} (h : s.phase = .idle) (op : Op) (key : Key) (block : Block) :
    s.transact op key block = ((s.load op key block).rounds 8).takeStep := by
  unfold State.transact
  rw [if_pos h, State.startStep_idle h]

theorem State.transact_disabled {s : State} (h : s.phase ≠ .idle) (op : Op) (key : Key) (block : Block) :
    s.transact op key block = s := if_neg h

theorem State.rounds_zero (s : State) : s.rounds 0 = s := rfl

theorem State.rounds_succ (n : Nat) (s : State) : s.rounds (n + 1) = s.roundStep.rounds n := rfl

/-- START in one case split: it loads in IDLE, and is nothing elsewhere. -/
theorem State.startStep_cases (s : State) (op : Op) (key : Key) (block : Block) :
    (s.phase = .idle ∧ s.startStep op key block = s.load op key block) ∨
      (s.phase ≠ .idle ∧ s.startStep op key block = s) := by
  by_cases h : s.phase = .idle
  · exact .inl ⟨h, State.startStep_idle h op key block⟩
  · exact .inr ⟨h, State.startStep_disabled h op key block⟩

/-- ROUND in one case split: it advances in RUN, and is nothing elsewhere. -/
theorem State.roundStep_cases (s : State) :
    (s.phase = .run ∧ s.roundStep = s.advance) ∨ (s.phase ≠ .run ∧ s.roundStep = s) := by
  by_cases h : s.phase = .run
  · exact .inl ⟨h, State.roundStep_run h⟩
  · exact .inr ⟨h, State.roundStep_disabled h⟩

/-- TAKE in one case split: it delivers in DONE, and is nothing elsewhere. -/
theorem State.takeStep_cases (s : State) :
    (s.phase = .done ∧ s.takeStep = s.deliver (combine s.mode (s.l, s.r))) ∨
      (s.phase ≠ .done ∧ s.takeStep = s) := by
  by_cases h : s.phase = .done
  · exact .inl ⟨h, State.takeStep_done h⟩
  · exact .inr ⟨h, State.takeStep_disabled h⟩

/-- The sequencing of R167 as one case split on whether this round is the last. -/
theorem State.advance_cases (s : State) :
    (s.rnd = lastIndex s.mode ∧ s.advance.phase = .done ∧ s.advance.rnd = s.rnd) ∨
      (s.rnd ≠ lastIndex s.mode ∧ s.advance.phase = .run ∧ s.advance.rnd = nextIndex s.mode s.rnd) := by
  by_cases h : s.rnd = lastIndex s.mode
  · exact .inl ⟨h, if_pos h, if_pos h⟩
  · exact .inr ⟨h, if_neg h, if_neg h⟩

end Sys2Proof.Machine
end

