-- ==== Sys2Proof/Laws/PerInstr.lean ====
section
/-! SUPPORT. One statement per instruction, about the instruction as syntax: its encoded word lies in its own row of
spec/opcode_table.json, whose mask and match are written out here from the table. -/

namespace Sys2Proof.Laws

/-- The bits of an encoded instruction as the table numbers them: the CMD word, or the 5-bit EVT word. -/
def tableBits : Encoded → Nat
  | .cmd w => w.toNat
  | .evt e _ => e.toNat

/-- The width, mask and match of an instruction's row. -/
def tableRow : Instr → Nat × Nat × Nat
  | .enc _ _ => (129, 0x100000000000000000000000000000000, 0x0)
  | .dec _ _ => (129, 0x100000000000000000000000000000000, 0x100000000000000000000000000000000)
  | .reset => (5, 0b10000, 0b10000)
  | .start _ _ _ => (5, 0b11011, 0b01000)
  | .round => (5, 0b10011, 0b00001)
  | .take => (5, 0b10111, 0b00110)

/-- The width of an encoded instruction's format. -/
def formatWidth : Encoded → Nat
  | .cmd _ => 129
  | .evt _ _ => 5

/-- The encoded word has the row's width and the row's fixed bits. -/
def OwnRow.Statement (i : Instr) : Prop :=
  formatWidth (encode i) = (tableRow i).1 ∧ tableBits (encode i) &&& (tableRow i).2.1 = (tableRow i).2.2

/-- The top bit of a CMD word, as a number. -/
theorem cmdWord_top (op : Op) (key : Key) (block : Block) :
    (cmdWord op key block).toNat &&& 0x100000000000000000000000000000000 =
      match op with
      | .enc => 0x0
      | .dec => 0x100000000000000000000000000000000 := by
  have h : (cmdWord op key block) &&& 0x100000000000000000000000000000000#129 =
      match op with
      | .enc => 0x0#129
      | .dec => 0x100000000000000000000000000000000#129 := by
    have e : 0x100000000000000000000000000000000#129 = BitVec.twoPow 129 128 := by decide
    rw [e, BitVec.and_twoPow, getLsbD_cmdWord]
    cases op <;> rfl
  have := congrArg BitVec.toNat h
  cases op <;> simpa using this

theorem OwnRow.enc (key : Key) (block : Block) : OwnRow.Statement (.enc key block) := ⟨rfl, cmdWord_top .enc key block⟩

theorem OwnRow.dec (key : Key) (block : Block) : OwnRow.Statement (.dec key block) := ⟨rfl, cmdWord_top .dec key block⟩

theorem OwnRow.reset : OwnRow.Statement .reset := ⟨rfl, by decide⟩

theorem OwnRow.start (op : Op) (key : Key) (block : Block) : OwnRow.Statement (.start op key block) := ⟨rfl, (by decide : (0b01000 : Nat) &&& 0b11011 = 0b01000)⟩

theorem OwnRow.round : OwnRow.Statement .round := ⟨rfl, by decide⟩

theorem OwnRow.take : OwnRow.Statement .take := ⟨rfl, by decide⟩

end Sys2Proof.Laws
end

