-- ==== Sys2Proof/Laws/Step.lean ====
section
/-! SUPPORT. Everything a step can do, said once: `step_cases`. Every claim about a step is a case analysis on it. -/

namespace Sys2Proof.Machine

@[simp] theorem exec_enc (key : Key) (block : Block) (s : State) :
    exec (.enc key block) s = .next (s.transact .enc key block) := rfl

@[simp] theorem exec_dec (key : Key) (block : Block) (s : State) :
    exec (.dec key block) s = .next (s.transact .dec key block) := rfl

@[simp] theorem exec_reset (s : State) : exec .reset s = .next s.resetStep := rfl

@[simp] theorem exec_start (op : Op) (key : Key) (block : Block) (s : State) :
    exec (.start op key block) s = .next (s.startStep op key block) := rfl

@[simp] theorem exec_round (s : State) : exec .round s = .next s.roundStep := rfl

@[simp] theorem exec_take (s : State) : exec .take s = .next s.takeStep := rfl

@[simp] theorem moveHost_next (h : List HostAct) (t : State) : moveHost h (.next t) = .next (t.withHost h) := rfl

@[simp] theorem offers_drive (p : Ports) : (HostAct.drive p).offers = p.cmdValid := rfl

@[simp] theorem offers_command (w : BitVec 129) : (HostAct.command w).offers = true := rfl

/-- What the EVT word of the ports and the phase selects (30_encoding.md R73), as one decision tree. -/
theorem decodeEvt_evt (p : Ports) (ph : Phase) (w : BitVec 129) :
    decodeEvt (p.evt ph) w =
      if p.rst then .ok .reset
      else match ph with
        | .idle => if p.cmdValid then .ok (.start (opField w) (keyField w) (blockField w)) else .error .noStep
        | .run => .ok .round
        | .done => if p.rspTake then .ok .take else .error .noStep := by
  unfold Ports.evt decodeEvt
  cases p.rst <;> cases p.cmdValid <;> cases p.rspTake <;> cases ph <;> rfl

/-- What the ports and the phase make of a state when no command is being carried out. -/
def State.afterPorts (s : State) : State :=
  if s.ports.rst then s.resetStep
  else match s.phase with
    | .idle => if s.ports.cmdValid then s.load s.ports.cmdOp s.ports.cmdKey s.ports.cmdBlock else s
    | .run => s.advance
    | .done => if s.ports.rspTake then s.deliver (combine s.mode (s.l, s.r)) else s

/-- A step that carries out a command: the engine is IDLE and the host has one. -/
theorem step_command {s : State} {w : BitVec 129} {rest : List HostAct} (hh : s.host = .command w :: rest)
    (hp : s.phase = .idle) :
    step s = .next ((s.transact (opField w) (keyField w) (blockField w)).withHost rest) := by
  have he : s.encoded = .cmd w := by simp [State.encoded, hh, hp]
  have ha : s.hostAfter = rest := by simp [State.hostAfter, hh, hp]
  unfold step State.fetch
  rw [he, ha]
  cases ho : opField w <;> simp [decode, decodeCmd, ho]

/-- Any other step: the ports and the phase decide. -/
theorem step_ports {s : State} (h : ∀ w rest, s.host = .command w :: rest → s.phase ≠ .idle) :
    step s = .next (s.afterPorts.withHost s.hostAfter) := by
  have he : s.encoded = .evt (s.ports.evt s.phase) s.ports.cmd := by
    unfold State.encoded
    split
    · rename_i w rest hh hp
      exact absurd hp (h w rest hh)
    · rfl
  unfold step State.fetch
  rw [he]
  simp only [decode, decodeEvt_evt, Ports.cmd, opField_cmdWord, keyField_cmdWord, blockField_cmdWord]
  unfold State.afterPorts State.noStep
  cases hr : s.ports.rst
  · cases hp : s.phase
    · cases hv : s.ports.cmdValid <;> simp [State.startStep_idle hp]
    · simp [State.roundStep_run hp]
    · cases ht : s.ports.rspTake <;> simp [State.takeStep_done hp]
  · simp

/-- EVERYTHING A STEP CAN DO: carry out a command in IDLE, or do what the ports and the phase select. -/
theorem step_cases (s : State) :
    (∃ w rest, s.host = .command w :: rest ∧ s.phase = .idle ∧
      step s = .next ((s.transact (opField w) (keyField w) (blockField w)).withHost rest)) ∨
    ((∀ w rest, s.host = .command w :: rest → s.phase ≠ .idle) ∧
      step s = .next (s.afterPorts.withHost s.hostAfter)) := by
  by_cases h : ∀ w rest, s.host = .command w :: rest → s.phase ≠ .idle
  · exact .inr ⟨h, step_ports h⟩
  · obtain ⟨w, h⟩ := not_forall.mp h
    obtain ⟨rest, h⟩ := not_forall.mp h
    obtain ⟨hh, hp⟩ := Classical.not_imp.mp h
    have hp := not_not.mp hp
    exact .inl ⟨w, rest, hh, hp, step_command hh hp⟩

/-- Where the host has nothing to offer (45_sequencing_and_host.md R172), the ports of this state offer nothing. -/
theorem ports_cmdValid_of_no_offer {s : State} (h : ∀ a ∈ s.host, a.offers = false) : s.ports.cmdValid = false := by
  unfold State.ports
  split
  · rfl
  · rename_i p rest hh
    exact h (.drive p) (by simp [hh])
  · rename_i w rest hh
    exact absurd (h (.command w) (by simp [hh])) (by simp)

/-- What the host still has to do is part of what it had. -/
theorem mem_of_mem_hostAfter {s : State} {a : HostAct} (h : a ∈ s.hostAfter) : a ∈ s.host := by
  unfold State.hostAfter at h
  split at h
  · rename_i p rest _ hh
    rw [hh]
    exact List.mem_cons_of_mem _ h
  · rename_i w rest hh _
    rw [hh]
    exact List.mem_cons_of_mem _ h
  · exact h

/-- EVERYTHING A STEP CAN DO in IDLE while nothing is offered: RESET, or only the host moves on. -/
theorem step_no_offer {s : State} (hp : s.phase = .idle) (h : ∀ a ∈ s.host, a.offers = false) :
    step s = .next ((if s.ports.rst then s.resetStep else s).withHost s.hostAfter) := by
  have hv : s.ports.cmdValid = false := ports_cmdValid_of_no_offer h
  have hc : ∀ w rest, s.host = .command w :: rest → s.phase ≠ .idle := fun w rest hh =>
    absurd (h (.command w) (by simp [hh])) (by simp)
  rw [step_ports hc]
  unfold State.afterPorts
  simp [hp, hv]

end Sys2Proof.Machine
end

