-- ==== Sys2Proof/Tests/Slice0.lean ====
section
/-! SUPPORT. Tests of the model, each expected value taken from the spec: the decoder on words written out from
30_encoding.md, at most two one-step tests per instruction from the traces of 43_encrypt.md, 44_decrypt.md and
95_test_vectors.md, the vectors of the data path, and a witness for the hypotheses of each obligation. -/

namespace Sys2Proof.Tests

open Sys2Proof Sys2Proof.Machine

/-- A small state: an engine with the given registers, a host with nothing given yet. -/
def mk (phase : Phase) (mode : Op) (rnd : Index) (key : Key) (l r : Half) (host : List HostAct) : State :=
  { phase := phase, mode := mode, rnd := rnd, key := key, l := l, r := r, host := host, delivered := [], resets := 1 }

/-- The next state an outcome gives. -/
def nextOf : Host.Outcome State Fault Refusal → Option State
  | .next t => some t
  | .fault _ => none
  | .refused _ => none

/-- The sequencing registers and the halves after an outcome. -/
def seen (o : Host.Outcome State Fault Refusal) : Option (Phase × Op × Index × Key × Half × Half) :=
  (nextOf o).map fun t => (t.phase, t.mode, t.rnd, t.key, t.l, t.r)

/-- An engine in IDLE, its registers those of the end of P1 (95_test_vectors.md). -/
def idleState : State := mk .idle .dec 0 0x0123456789ABCDEF 0xFEDCBA98 0x76543210 []

/-- The state of 43_encrypt.md R139 before its last round. -/
def encLast : State := mk .run .enc 7 0x0123456789ABCDEF 0x51D1F77E 0xD8401310 []

/-- The state of 44_decrypt.md R154 before its last round. -/
def decLast : State := mk .run .dec 0 0x0123456789ABCDEF 0x76543210 0x9D17559B []

/-- The state of R139 in DONE. -/
def encDone : State := mk .done .enc 7 0x0123456789ABCDEF 0xD8401310 0xA6082831 []

/-- The state of R154 in DONE. -/
def decDone : State := mk .done .dec 0 0x0123456789ABCDEF 0xFEDCBA98 0x76543210 []

/-! ## Decoding: words written out from R71, R72, R73, R82 -/

theorem test_decode_enc : decode (.cmd 0x000000000000000010000000000000000#129) = .ok (.enc 1 0) := by decide

theorem test_decode_dec :
    decode (.cmd 0x10123456789ABCDEFA6082831D8401310#129) = .ok (.dec 0x0123456789ABCDEF 0xA6082831D8401310) := by decide

theorem test_decode_reset : decode (.evt 0b11110#5 0#129) = .ok .reset := by decide

theorem test_decode_start :
    decode (.evt 0b01100#5 0x000000000000000010000000000000000#129) = .ok (.start .enc 1 0) := by decide

theorem test_decode_round : decode (.evt 0b00101#5 0#129) = .ok .round := by decide

theorem test_decode_take : decode (.evt 0b01110#5 0#129) = .ok .take := by decide

/-- 95_test_vectors.md 2.6, the rows that select no step, and the phase R29 says is never produced (item I10). -/
theorem test_decode_none :
    [0b00000#5, 0b00100#5, 0b00010#5, 0b01010#5].map (fun e => decode (.evt e 0#129)) = List.replicate 4 (.error .noStep) ∧
    decode (.evt 0b00011#5 0#129) = .error .phaseThree ∧ decode (.evt 0b10011#5 0#129) = .ok .reset := by decide

theorem test_encode_R82 : encode (.dec 0x0123456789ABCDEF 0xA6082831D8401310) = .cmd 0x10123456789ABCDEFA6082831D8401310#129 := by
  decide

theorem test_table_words :
    decodeTableWord 129 0x100000000000000000000000000000000 = some (.dec 0 0) ∧
    decodeTableWord 5 0b00110 = some .take ∧ decodeTableWord 5 0b100000 = none ∧ decodeTableWord 32 0 = none := by decide

theorem test_decode_bytes :
    decodeBytes [0x06#8] = .ok .take ∧ decodeBytes [] = .error .noFormat ∧
    decodeBytes [0x10, 0x13, 0x40, 0xD8, 0x31, 0x28, 0x08, 0xA6, 0xEF, 0xCD, 0xAB, 0x89, 0x67, 0x45, 0x23, 0x01, 0x01] =
      .ok (.dec 0x0123456789ABCDEF 0xA6082831D8401310) := by decide

/-! ## The ranges a check refuses (R79) -/

theorem test_wellFormed_all : (Instr.start .dec 0xFFFFFFFFFFFFFFFF 0).wellFormed = true := by decide

theorem test_round_count_zero_refused : (Stmt.round 0).wellFormed = false := by decide

theorem test_round_count_nine_refused : (Stmt.round 9).wellFormed = false ∧ runScript [.round 9] encLast = none := by decide

/-! ## The data path: 95_test_vectors.md 2.1 to 2.5 -/

theorem test_rotations :
    rotl32 0x12345678 9 = 0x68ACF024 ∧ rotl32 0x12345678 41 = 0x68ACF024 ∧ rotr32 0x12345678 11 = 0xCF02468A ∧
    rotr32 0x00000400 11 = 0x80000000 ∧ rotr64 0xDEADBEEFCAFEBABE 21 = 0xF5D5F6F56DF77E57 ∧
    rotr64 0x0123456789ABCDEF 67 = 0xE02468ACF13579BD := by decide

theorem test_roundFunction :
    roundFunction 0x12345678 0x9ABCDEF0 = 0x854359C3 ∧ roundFunction 0xDEADBEEF 0xCAFEBABE = 0xF20B3E85 ∧
    roundFunction 0x80000000 0x00000400 = 0x7FFFFEFF ∧ roundFunction 0xFFFFFFFF 0x12345678 = 0xCF02468A := by decide

theorem test_subkey :
    subkey 0x0123456789ABCDEF 1 = 0xF13579BD ∧ subkey 0x0000000100000000 1 = 0x20000000 ∧
    subkey 0x0010000000000000 7 = 0x80000000 ∧ subkey 0x0020000000000000 7 = 0 := by decide

/-- V7, V11, V12, V18. -/
theorem test_encrypt :
    encrypt 0x4847464544434241 0xDEADBEEFCAFEBABE = 0xC77D987988CDD79B ∧
    encrypt 0x0123456789ABCDEF 0x00000000FFFFFFFF = 0x108E236FBAC833F9 ∧
    encrypt 0x0123456789ABCDEF 0xFFFFFFFF00000000 = 0x06F00673F1ED0C59 ∧
    encrypt 0x0000000000200000 0x0000000000000001 = 0x22300800FDCFF7FF := by decide

/-- V7, V12, V18, V24. -/
theorem test_decrypt :
    decrypt 0x4847464544434241 0xDEADBEEFCAFEBABE = 0xB1D26D05B1275A39 ∧
    decrypt 0x0123456789ABCDEF 0xFFFFFFFF00000000 = 0xD063FC0F465B7A23 ∧
    decrypt 0x0000000000200000 0x0000000000000001 = 0x22000800FFEFFFFF ∧
    decrypt 0xFEDCBA9876543210 0x0123456789ABCDEE = 0x66C97D5E717BA132 := by decide

theorem test_pack :
    pack #v[0x41, 0x42, 0x43, 0x44, 0x45, 0x46, 0x47, 0x48] = 0x4847464544434241 ∧
    unpack 0xC77D987988CDD79B = #v[0x9B, 0xD7, 0xCD, 0x88, 0x79, 0x98, 0x7D, 0xC7] := by decide

/-- 20_memory.md R54: bytes 4 to 7 of "ABCDEFGH" are "EFGH"; a read past the record is not defined (00_scope.md R12). -/
theorem test_memRead :
    memRead #v[0x41, 0x42, 0x43, 0x44, 0x45, 0x46, 0x47, 0x48] 4 4 = some 0x48474645 ∧
    memRead #v[0x41, 0x42, 0x43, 0x44, 0x45, 0x46, 0x47, 0x48] 5 4 = none := by decide

theorem test_memWrite :
    memWrite (unpack 0) 6 2 0xFFFF#64 = some #v[0, 0, 0, 0, 0, 0, 0xFF, 0xFF] ∧ memWrite (unpack 0) 7 2 0 = none := by decide

/-! ## One step -/

/-- V6 from a state that is not fresh: the result, and the registers at the end of P1's first transaction. -/
theorem test_enc :
    seen (exec (.enc 0x0123456789ABCDEF 0xFEDCBA9876543210) idleState) =
      some (.idle, .enc, 7, 0x0123456789ABCDEF, 0xD8401310, 0xA6082831) ∧
    (nextOf (exec (.enc 0x0123456789ABCDEF 0xFEDCBA9876543210) idleState)).map (·.delivered) =
      some [0xA6082831D8401310] := by decide

/-- 45_sequencing_and_host.md R164: a command offered in DONE is held. -/
theorem test_enc_held : nextOf (exec (.enc 1 0) encDone) = some encDone := by decide

/-- P5: a wrong key, no error, a wrong block. -/
theorem test_dec :
    seen (exec (.dec 0 0xA6082831D8401310) idleState) = some (.idle, .dec, 0, 0, 0x0B6036D9, 0x593CDF56) ∧
    (nextOf (exec (.dec 0 0xA6082831D8401310) idleState)).map (·.delivered) = some [0x0B6036D9593CDF56] := by decide

/-- P4: RESET in the middle of a command delivers nothing. -/
theorem test_reset :
    (nextOf (exec .reset encLast)).map (fun t => (t.phase, t.delivered, t.cmdReady, t.rspBlock)) =
      some (.idle, [], true, none) := by decide

/-- P3, row 13: the registers a START of DEC loads. -/
theorem test_start_dec :
    seen (exec (.start .dec 1 0x00000000FFFFFFFF) idleState) = some (.run, .dec, 7, 1, 0xFFFFFFFF, 0) := by decide

/-- The word of START as the first instruction after reset. -/
theorem test_start_after_reset :
    (nextOf (step (State.reset.withFetchWord 5 0b01000))).map (fun t => (t.phase, t.mode, t.rnd, t.key, t.l, t.r)) =
      some (.run, .enc, 0, 0, 0, 0) := by decide

/-- R139, round index 7: the last round leaves RND. -/
theorem test_round_enc_last :
    seen (exec .round encLast) = some (.done, .enc, 7, 0x0123456789ABCDEF, 0xD8401310, 0xA6082831) := by decide

/-- P5, round index 6 of a DEC under key 0: RND counts down. -/
theorem test_round_dec :
    seen (exec .round (mk .run .dec 6 0 0xD9D1F67E 0xD8401310 [])) = some (.run, .dec, 5, 0, 0x8453115C, 0xD9D1F67E) := by
  decide

theorem test_take_enc : (nextOf (exec .take encDone)).map (·.delivered) = some [0xA6082831D8401310] := by decide

theorem test_take_dec : (nextOf (exec .take decDone)).map (·.delivered) = some [0xFEDCBA9876543210] := by decide

/-- 60_exceptions.md R196: in a step, `rst` wins over an offer and a take. -/
theorem test_step_reset_wins :
    (nextOf (step { encDone with host := [.drive ⟨true, true, true, .enc, 0, 0⟩] })).map (fun t => (t.phase, t.delivered, t.host)) =
      some (.idle, [], []) := by decide

/-! ## Scripts (R79 to R82) -/

theorem test_parse :
    parseLine "DEC key=0x0000000000000001 block=0x00000000FFFFFFFF -> 0x0000000000000000 ; P4".toList =
      some [.command .dec 1 0x00000000FFFFFFFF (some 0)] ∧
    parseLine "ROUND *3".toList = some [.round 3] ∧ parseLine "ROUND *9".toList = none ∧
    parseLine "  ; nothing".toList = some [] := by decide

theorem test_cmdWords :
    cmdWords [.reset, .command .enc 1 0 none, .round 8, .take none] = [0x000000000000000010000000000000000#129] := by decide

/-! ## Witnesses: for each obligation with hypotheses, values that meet them, clause by clause -/

/-- Ports that ask for nothing but a take. -/
def takePorts : Ports := ⟨false, false, true, .enc, 0, 0⟩

/-- Ports that offer a DEC, take, and reset or not. -/
def allPorts (rst : Bool) : Ports := ⟨rst, true, true, .dec, 1, 0x00000000FFFFFFFF⟩

theorem witness_DecodeOfEncodeIsTheInstruction : (Instr.dec 0xFFFFFFFFFFFFFFFF 0).wellFormed = true := by decide

theorem witness_EventWordsSelectTheTabledStep :
    0b11111#5 &&& 0b10000#5 = 0b10000#5 ∧ 0b01100#5 &&& 0b11011#5 = 0b01000#5 ∧ 0b01101#5 &&& 0b10011#5 = 0b00001#5 ∧
    0b01110#5 &&& 0b10111#5 = 0b00110#5 ∧
    (0b01010#5 &&& 0b10000#5 ≠ 0b10000#5 ∧ 0b01010#5 &&& 0b11011#5 ≠ 0b01000#5 ∧ 0b01010#5 &&& 0b10011#5 ≠ 0b00001#5 ∧
      0b01010#5 &&& 0b10111#5 ≠ 0b00110#5 ∧ 0b01010#5 &&& 0b00011#5 ≠ 0b00011#5) ∧
    (0b01111#5 &&& 0b10000#5 ≠ 0b10000#5 ∧ 0b01111#5 &&& 0b00011#5 = 0b00011#5) := by decide

theorem witness_PlacedWordIsTheNextInstruction : decodeTableWord 5 0b01001 = some .round := by decide

theorem witness_SubkeysAreKeySlices :
    ∃ key key' : Key, key ≠ key' ∧ ∀ j, j < 53 → key.getLsbD j = key'.getLsbD j :=
  ⟨0x0020000000000000, 0x8000000000000000, by decide, by decide⟩

theorem witness_EncryptIsTheRecurrence :
    ∃ left right : Nat → Half, left 0 = highHalf 0x4847464544434241 ∧ right 0 = lowHalf 0x4847464544434241 ∧
      ∀ i : Index, left (i.val + 1) = right i.val ∧
        right (i.val + 1) = xor32 (left i.val) (roundFunction (right i.val) (subkey 0xDEADBEEFCAFEBABE i)) :=
  ⟨fun n => (halvesAfter .enc 0xDEADBEEFCAFEBABE 0x4847464544434241 n).1,
    fun n => (halvesAfter .enc 0xDEADBEEFCAFEBABE 0x4847464544434241 n).2, by decide, by decide, by decide⟩

theorem witness_PalindromicKeysMakeDecryptEncrypt :
    (∀ i : Index, i.val ≤ 3 → subkey 0xFFE0000000000000 i = subkey 0xFFE0000000000000 (7 - i)) ∧
    (∀ j, j < 53 → (0xFFE0000000000000 : Key).getLsbD j = false) ∧
    (∀ j, j < 53 → (0x001FFFFFFFFFFFFF : Key).getLsbD j = true) := by decide

/-- Both edges of the range: the whole record, and no byte at its end; and bytes inside and outside a write. -/
theorem witness_RecordWritesSetTheirBytesOnly :
    0 + 8 ≤ 8 ∧ 8 + 0 ≤ 8 ∧ 6 + 2 ≤ 8 ∧ (6 ≤ (7 : Fin 8).val ∧ (7 : Fin 8).val < 6 + 2) ∧
    ¬ (6 ≤ (5 : Fin 8).val ∧ (5 : Fin 8).val < 6 + 2) := by decide

theorem witness_StartLoadsTheCommand :
    idleState.phase = .idle ∧ ({ idleState with host := [.drive (allPorts false)] } : State).host = .drive (allPorts false) :: [] ∧
    (allPorts false).rst = false ∧ (allPorts false).cmdValid = true ∧ (allPorts false).cmdOp = .dec ∧
    (allPorts false).cmdKey = 1 ∧ (allPorts false).cmdBlock = 0x00000000FFFFFFFF := by decide

/-- Each direction at its last index and one before it. -/
theorem witness_RoundComputesAndSequences :
    (encLast.phase = .run ∧ encLast.mode = .enc ∧ encLast.rnd = 7 ∧ encLast.ports.rst = false) ∧
    (decLast.phase = .run ∧ decLast.mode = .dec ∧ decLast.rnd = 0 ∧ decLast.ports.rst = false) ∧
    ({ encLast with rnd := 6 } : State).rnd ≠ 7 ∧ ({ decLast with rnd := 1 } : State).rnd ≠ 0 := by decide

theorem witness_TakeDeliversTheResponse :
    encDone.phase = .done ∧ encDone.mode = .enc ∧ decDone.phase = .done ∧ decDone.mode = .dec ∧
    ({ encDone with host := [.drive takePorts] } : State).host = .drive takePorts :: [] ∧
    takePorts.rst = false ∧ takePorts.rspTake = true := by decide

theorem witness_EncCommandDeliversEncrypt : idleState.phase = .idle := by decide

theorem witness_DecCommandDeliversDecrypt : idleState.phase = .idle := by decide

theorem witness_StepsNotEnabledChangeNothing :
    encLast.phase ≠ .idle ∧ encDone.phase ≠ .idle ∧ idleState.phase ≠ .run ∧ encDone.phase ≠ .run ∧
    idleState.phase ≠ .done ∧ encLast.phase ≠ .done := by decide

/-- One for each arm: every instruction answers a next state. -/
theorem witness_FrameOfEveryInstruction :
    ∀ i ∈ ([.enc 1 0, .dec 1 0, .start .dec 1 0, .round, .take] : List Instr),
      ∀ s ∈ [idleState, encLast, decDone], (nextOf (exec i s)).isSome = true := by decide

theorem witness_FrameOfReset : ∃ t, exec .reset encLast = .next t := ⟨_, rfl⟩

theorem witness_OutputsFollowThePhase : encDone.phase = .done ∧ encLast.phase ≠ .done := by decide

theorem witness_StepRunsTheDecodedInstruction :
    (encLast.fetch = .ok .round ∧ Instr.round.wellFormed = true) ∧ idleState.fetch = .error .noStep ∧
    ({ encDone with host := [.drive takePorts] } : State).host = .drive takePorts :: [] ∧
    (({ idleState with host := [.command 5] } : State).host = .command 5 :: [] ∧ idleState.phase = .idle) := by decide

/-- `rst` in each of the three phases, and an EVT word without it. -/
theorem witness_ResetWins :
    (∀ s ∈ [idleState, encLast, encDone], ({ s with host := [.drive (allPorts true)] } : State).host = .drive (allPorts true) :: []) ∧
    (allPorts true).rst = true ∧ isReset 0b01110#5 = false := by decide

theorem witness_OfferAndTakeTogether :
    (allPorts false).rst = false ∧ (allPorts false).cmdValid = true ∧ (allPorts false).rspTake = true ∧
    (∀ s ∈ [idleState, encLast, encDone],
      ({ s with host := [.drive (allPorts false), .drive (allPorts false)] } : State).host =
        .drive (allPorts false) :: [.drive (allPorts false)]) ∧
    idleState.phase = .idle ∧ encLast.phase = .run ∧ encDone.phase = .done := by decide

/-- Two different hosts for each of the four cases. -/
theorem witness_UnselectedInputsAreIgnored :
    (encLast.phase = .run ∧ (allPorts false).rst = false ∧ takePorts.rst = false ∧ allPorts false ≠ takePorts) ∧
    (encDone.phase = .done ∧ (allPorts false).rspTake = takePorts.rspTake) ∧
    (idleState.phase = .idle ∧ takePorts.cmdValid = false ∧ Ports.undriven.cmdValid = false ∧ takePorts ≠ Ports.undriven) ∧
    (idleState.phase = .idle ∧ (allPorts false).cmdValid = true ∧ ({ allPorts false with rspTake := false } : Ports) =
      { allPorts false with rspTake := ({ allPorts false with rspTake := false } : Ports).rspTake }) := by decide

theorem witness_HeldCommandWaits :
    (∀ s ∈ [encLast, encDone], ({ s with host := [.command 5] } : State).host = .command 5 :: []) ∧
    encLast.phase = .run ∧ encDone.phase = .done := by decide

/-- A state and its step for each cell of R28's table, the held command in RUN and DONE among them. -/
theorem witness_PhaseTransitions :
    ∀ s ∈ [{ idleState with host := [.drive (allPorts false)] }, idleState, encLast, { encLast with rnd := 6 }, decLast,
        { decLast with rnd := 1 }, { encDone with host := [.drive takePorts] }, { encDone with host := [.command 5] }],
      (nextOf (step s)).isSome = true ∧ s.ports.rst = false ∧ (s.phase = .idle → s.host.head? ≠ some (.command 5)) := by
  decide

theorem witness_PhaseTransitions_reset :
    ∃ s t : State, (∀ w rest, s.host = .command w :: rest → s.phase ≠ .idle) ∧ step s = .next t ∧ s.ports.rst = true :=
  ⟨{ encLast with host := [.drive (allPorts true)] }, _, fun _ _ _ => by decide, rfl, rfl⟩

theorem witness_KeyAndModeAreFixedInsideACommand :
    encLast.phase ≠ .idle ∧ encLast.ports.rst = false ∧ (nextOf (step encLast)).isSome = true ∧
    encDone.phase ≠ .idle ∧ encDone.ports.rst = false ∧ (nextOf (step encDone)).isSome = true := by decide

/-- A step of each of the three kinds. -/
theorem witness_OnlyResponsesAreDelivered :
    ∀ s ∈ [encLast, { decDone with host := [.drive takePorts] },
        { idleState with host := [.command (cmdWord .enc 1 0x200000)] }], (nextOf (step s)).isSome = true := by decide

theorem witness_EveryStepKeepsTheRoundIndexInvariant :
    (∃ t, encLast.Inv ∧ step encLast = .next t) ∧ (∃ t, decDone.Inv ∧ decDone.phase = .done ∧ step decDone = .next t) :=
  ⟨⟨_, fun h => by simp [encLast, mk] at h, rfl⟩, ⟨_, fun _ => rfl, rfl, rfl⟩⟩

/-- Inside a command at its first state, before its last round and in DONE. -/
theorem witness_EveryStepKeepsTheCommandInvariant :
    idleState.phase = .idle ∧
    (idleState.startStep .dec 1 5).InCommand .dec 1 5 ∧
    encLast.InCommand .enc 0x0123456789ABCDEF 0xFEDCBA9876543210 ∧
    decDone.InCommand .dec 0x0123456789ABCDEF 0xA6082831D8401310 := by
  unfold State.InCommand State.Inv
  decide

theorem witness_EightRoundsComputeTheTransformation : idleState.phase = .idle ∧ 0 ≤ 8 ∧ 8 ≤ 8 ∧ 0 < 8 := by decide

theorem witness_StartedCommandFinishes :
    encLast.phase = .run ∧ NoReset encLast.host ∧ encLast.roundsRun = 7 ∧
    (idleState.startStep .dec 1 5).phase = .run ∧ (idleState.startStep .dec 1 5).roundsRun = 0 ∧
    NoReset [.drive (allPorts false), .command 5] ∧ 0 < 8 - encLast.roundsRun :=
  ⟨rfl, trivial, rfl, rfl, rfl, ⟨rfl, trivial⟩, by decide⟩

theorem witness_CommandIsTenSteps : idleState.phase = .idle := by decide

theorem witness_ResponsesComeInCommandOrder : idleState.phase = .idle := by decide

/-- 45_sequencing_and_host.md R172: waiting, an early take and a reset are no offer; an offer still to come, or RUN, is not final. -/
theorem test_isFinal :
    ({ idleState with host := [.drive .undriven, .drive takePorts, .drive .resetOnly] } : State).isFinal ∧
    ¬ ({ idleState with host := [.drive .undriven, .drive (allPorts false)] } : State).isFinal ∧
    ¬ ({ idleState with host := [.command 5] } : State).isFinal ∧ ¬ encLast.isFinal ∧ ¬ encDone.isFinal := by
  unfold State.isFinal NoOffer
  decide

theorem witness_FinalStatesStayFinal :
    idleState.phase = .idle ∧
    (∀ a ∈ [HostAct.drive .undriven, .drive .takeOnly, .drive .resetOnly],
      a = .drive .undriven ∨ a = .drive .takeOnly ∨ a = .drive .resetOnly) ∧
    encLast.phase = .run ∧ encDone.phase = .done ∧
    ({ idleState with host := [.drive takePorts] } : State).isFinal ∧
    ({ idleState with host := [.drive takePorts] } : State).ports.rst = false ∧
    (nextOf (step { idleState with host := [.drive takePorts] })).isSome = true := by
  unfold State.isFinal NoOffer
  decide

theorem witness_MachineRoundTripRestoresTheBlock : idleState.phase = .idle := by decide

/-- Two states that agree on nothing the engine holds, and, in IDLE, two that differ in all five data registers. -/
theorem witness_NothingCarriesOverBetweenCommands :
    ∀ s ∈ [encLast, idleState], ∀ u ∈ [decDone, mk .idle .enc 3 0 0 0 []],
      s.host = u.host ∧ s.delivered = u.delivered ∧ s.resets = u.resets := by decide

theorem witness_SequencingIgnoresTheData :
    ∀ s ∈ [encLast], ∀ u ∈ [mk .run .enc 7 0 0 0 []], s ≠ u ∧ s.phase = u.phase ∧ s.mode = u.mode ∧ s.rnd = u.rnd ∧
      s.host = u.host ∧ s.resets = u.resets ∧ (nextOf (step s)).isSome = true ∧ (nextOf (step u)).isSome = true := by
  decide

/-- In IDLE and out of it; the asserted value that V1 gives and one that it does not. -/
theorem witness_ScriptCommandIsItsExpansion :
    idleState.phase = .idle ∧ encDone.phase ≠ .idle ∧ 0x00000000FFFFFFFF = transform .enc 0 1 ∧
    0 ≠ transform .enc 0 1 := by decide

theorem witness_InstancesShareNothing :
    [encLast, idleState][1]? = some idleState ∧ (0 : Nat) ≠ 1 := by decide

end Sys2Proof.Tests
end

section
/-! The bytes of a record after a write (00_scope.md R12). -/

namespace Sys2Proof.Proofs.Records

open Sys2Proof Sys2Proof.Machine

/-- Byte `j` after `putBytes`, for every `a` and `n`: a byte that would fall past the record is not written. -/
theorem getElem_putBytes (v : Block) (a n : Nat) (b : Record) (j : Nat) (hj : j < 8) :
    (putBytes v a n b)[j] = if a ≤ j ∧ j < a + n then lane v (j - a) else b[j] := by
  induction n with
  | zero =>
    have outside : ¬ (a ≤ j ∧ j < a + 0) := by omega
    rw [putBytes, if_neg outside]
  | succ n ih =>
    rw [putBytes, Vector.getElem_setIfInBounds hj, ih]
    by_cases last : a + n = j
    · have inside : a ≤ j ∧ j < a + (n + 1) := by omega
      have number : j - a = n := by omega
      rw [if_pos last, if_pos inside, number]
    · have sameRange : (a ≤ j ∧ j < a + (n + 1)) ↔ (a ≤ j ∧ j < a + n) := by omega
      simp only [if_neg last, sameRange]

theorem memWrite_of_le (b : Record) (v : Block) {a n : Nat} (h : a + n ≤ 8) :
    memWrite b a n v = some (putBytes v a n b) := if_pos h

/-- Settles O20: a write that R12 defines is `putBytes`, and `getElem_putBytes` gives each of its bytes. -/
theorem recordWritesSetTheirBytesOnly : Obligations.RecordWritesSetTheirBytesOnly := by
  intro b a n v h
  refine ⟨putBytes v a n b, memWrite_of_le b v h, fun j => ⟨fun inside => ?_, fun outside => ?_⟩⟩
  · exact (getElem_putBytes v a n b j j.isLt).trans (if_pos inside)
  · exact (getElem_putBytes v a n b j j.isLt).trans (if_neg outside)

end Sys2Proof.Proofs.Records
end

section
/-! What a step does, by the inputs and the phase that select it (30_encoding.md R73, 45_sequencing_and_host.md R161). -/

namespace Sys2Proof.Proofs.Steps

open Sys2Proof Sys2Proof.Machine

theorem afterPorts_rst {s : State} (hr : s.ports.rst = true) : s.afterPorts = s.resetStep := by
  simp [State.afterPorts, hr]

theorem afterPorts_offer {s : State} (hr : s.ports.rst = false) (hp : s.phase = .idle) (hv : s.ports.cmdValid = true) :
    s.afterPorts = s.load s.ports.cmdOp s.ports.cmdKey s.ports.cmdBlock := by
  simp [State.afterPorts, hr, hp, hv]

theorem afterPorts_no_offer {s : State} (hr : s.ports.rst = false) (hp : s.phase = .idle)
    (hv : s.ports.cmdValid = false) : s.afterPorts = s := by
  simp [State.afterPorts, hr, hp, hv]

theorem afterPorts_run {s : State} (hr : s.ports.rst = false) (hp : s.phase = .run) : s.afterPorts = s.advance := by
  simp [State.afterPorts, hr, hp]

theorem afterPorts_take {s : State} (hr : s.ports.rst = false) (hp : s.phase = .done) (ht : s.ports.rspTake = true) :
    s.afterPorts = s.deliver (combine s.mode (s.l, s.r)) := by
  simp [State.afterPorts, hr, hp, ht]

theorem afterPorts_no_take {s : State} (hr : s.ports.rst = false) (hp : s.phase = .done)
    (ht : s.ports.rspTake = false) : s.afterPorts = s := by
  simp [State.afterPorts, hr, hp, ht]

/-- `step_ports` read backwards, for a step already given. -/
theorem eq_of_step_ports {s t : State} (hc : ∀ w rest, s.host = .command w :: rest → s.phase ≠ .idle)
    (hs : step s = .next t) : t = s.afterPorts.withHost s.hostAfter :=
  Host.Outcome.next.inj (hs.symm.trans (step_ports hc))

/-- EVERYTHING A STEP CAN DO inside a command: RESET, the next ROUND, the TAKE, or the wait for it. -/
theorem step_inside_cases {s t : State} (hp : s.phase ≠ .idle) (hs : step s = .next t) :
    (s.ports.rst = true ∧ t = s.resetStep.withHost s.hostAfter) ∨
    (s.ports.rst = false ∧ s.phase = .run ∧ t = s.advance.withHost s.hostAfter) ∨
    (s.ports.rst = false ∧ s.phase = .done ∧ s.ports.rspTake = true ∧
      t = (s.deliver (combine s.mode (s.l, s.r))).withHost s.hostAfter) ∨
    (s.ports.rst = false ∧ s.phase = .done ∧ s.ports.rspTake = false ∧ t = s.withHost s.hostAfter) := by
  have ht := eq_of_step_ports (fun _ _ _ => hp) hs
  cases hr : s.ports.rst with
  | true => exact .inl ⟨rfl, by rw [ht, afterPorts_rst hr]⟩
  | false =>
    cases hq : s.phase with
    | idle => exact absurd hq hp
    | run => exact .inr (.inl ⟨rfl, rfl, by rw [ht, afterPorts_run hr hq]⟩)
    | done =>
      cases hk : s.ports.rspTake with
      | true => exact .inr (.inr (.inl ⟨rfl, rfl, rfl, by rw [ht, afterPorts_take hr hq hk]⟩))
      | false => exact .inr (.inr (.inr ⟨rfl, rfl, rfl, by rw [ht, afterPorts_no_take hr hq hk]⟩))

theorem takeStep_phase_ne_done (s : State) : s.takeStep.phase ≠ .done := by
  obtain ⟨-, h⟩ | ⟨hp, h⟩ := s.takeStep_cases
  · simp [h]
  · rwa [h]

/-- No step leads from IDLE to DONE, not even a whole command, which ends with its TAKE (10_state.md R28). -/
theorem step_idle_phase_ne_done {s t : State} (hp : s.phase = .idle) (hs : step s = .next t) : t.phase ≠ .done := by
  obtain ⟨w, rest, -, -, h⟩ | ⟨hc, -⟩ := step_cases s
  · obtain rfl := Host.Outcome.next.inj (h.symm.trans hs)
    rw [State.withHost_phase, State.transact_idle hp]
    exact takeStep_phase_ne_done _
  · rw [eq_of_step_ports hc hs, State.withHost_phase]
    cases hr : s.ports.rst with
    | true => simp [afterPorts_rst hr]
    | false =>
      cases hv : s.ports.cmdValid with
      | true => simp [afterPorts_offer hr hp hv]
      | false => simp [afterPorts_no_offer hr hp hv, hp]

end Sys2Proof.Proofs.Steps
end

section
/-! What a command's rounds leave in the registers, counted by `State.roundsRun` (10_state.md R39, 43_encrypt.md R134,
44_decrypt.md R149). -/

namespace Sys2Proof.Proofs.Rounds

open Sys2Proof Sys2Proof.Machine

theorem halvesAfter_zero (op : Op) (key : Key) (block : Block) : halvesAfter op key block 0 = loadHalves op block := rfl

/-- One more round uses the next index of the command's order. -/
theorem halvesAfter_succ {op : Op} {n : Nat} {i : Index} (hi : (indices op)[n]? = some i) (key : Key) (block : Block) :
    halvesAfter op key block (n + 1) = modeRound op (subkey key i) (halvesAfter op key block n) := by
  simp [halvesAfter, List.take_add_one, hi]

theorem combine_halvesAfter (op : Op) (key : Key) (block : Block) :
    combine op (halvesAfter op key block 8) = transform op block key := by
  cases op <;> rfl

theorem roundsRun_enc {s : State} (hp : s.phase = .run) (hm : s.mode = .enc) : s.roundsRun = s.rnd.val := by
  simp [State.roundsRun, hp, hm]

theorem roundsRun_dec {s : State} (hp : s.phase = .run) (hm : s.mode = .dec) : s.roundsRun = 7 - s.rnd.val := by
  simp [State.roundsRun, hp, hm]

theorem roundsRun_done {s : State} (hp : s.phase = .done) : s.roundsRun = 8 := by
  simp [State.roundsRun, hp]

@[simp] theorem roundsRun_withHost (h : List HostAct) (s : State) : (s.withHost h).roundsRun = s.roundsRun := rfl

theorem roundsRun_load (op : Op) (key : Key) (block : Block) (s : State) : (s.load op key block).roundsRun = 0 := by
  cases op <;> rfl

theorem roundsRun_lt_eight {s : State} (hp : s.phase = .run) : s.roundsRun < 8 := by
  cases hm : s.mode with
  | enc => rw [roundsRun_enc hp hm]; exact s.rnd.isLt
  | dec => rw [roundsRun_dec hp hm]; omega

/-- In RUN the register RND holds the index of the round that comes next (10_state.md R26). -/
theorem indices_roundsRun {s : State} (hp : s.phase = .run) : (indices s.mode)[s.roundsRun]? = some s.rnd := by
  have up : ∀ i : Index, (indices .enc)[i.val]? = some i := by decide
  have down : ∀ i : Index, (indices .dec)[7 - i.val]? = some i := by decide
  cases hm : s.mode with
  | enc => rw [roundsRun_enc hp hm]; exact up s.rnd
  | dec => rw [roundsRun_dec hp hm]; exact down s.rnd

theorem roundsRun_of_rnd_eq_lastIndex {s : State} (hp : s.phase = .run) (hl : s.rnd = lastIndex s.mode) :
    s.roundsRun = 7 := by
  cases hm : s.mode with
  | enc => rw [roundsRun_enc hp hm, hl, hm]; rfl
  | dec => rw [roundsRun_dec hp hm, hl, hm]; rfl

theorem roundsRun_advance {s : State} (hp : s.phase = .run) : s.advance.roundsRun = s.roundsRun + 1 := by
  obtain ⟨hl, hdone, -⟩ | ⟨hl, hrun, hnext⟩ := s.advance_cases
  · rw [roundsRun_done hdone, roundsRun_of_rnd_eq_lastIndex hp hl]
  · have up : ∀ i : Index, i ≠ 7 → (i + 1).val = i.val + 1 := by decide
    have down : ∀ i : Index, i ≠ 0 → 7 - (i - 1).val = 7 - i.val + 1 := by decide
    cases hm : s.mode with
    | enc =>
      rw [hm] at hl hnext
      rw [roundsRun_enc hrun hm, roundsRun_enc hp hm, hnext]
      exact up s.rnd hl
    | dec =>
      rw [hm] at hl hnext
      rw [roundsRun_dec hrun hm, roundsRun_dec hp hm, hnext]
      exact down s.rnd hl

theorem inv_of_phase_ne_done {s : State} (hp : s.phase ≠ .done) : s.Inv := fun h => absurd h hp

theorem inv_advance (s : State) : s.advance.Inv := by
  obtain ⟨hl, -, hr⟩ | ⟨-, hp, -⟩ := s.advance_cases
  · exact fun _ => hr.trans hl
  · exact inv_of_phase_ne_done (by rw [hp]; decide)

theorem inCommand_load (op : Op) (key : Key) (block : Block) (s : State) :
    (s.load op key block).InCommand op key block := by
  refine ⟨by simp, rfl, rfl, inv_of_phase_ne_done (by simp), ?_⟩
  rw [roundsRun_load, halvesAfter_zero]
  rfl

/-- Where a command's invariant holds in RUN, it holds after the next ROUND. -/
theorem inCommand_advance {s : State} {op : Op} {key : Key} {block : Block} (h : s.InCommand op key block)
    (hp : s.phase = .run) : s.advance.InCommand op key block := by
  obtain ⟨-, rfl, rfl, -, halves⟩ := h
  have notIdle : s.advance.phase ≠ .idle := by
    obtain ⟨-, hq, -⟩ | ⟨-, hq, -⟩ := s.advance_cases <;> rw [hq] <;> decide
  refine ⟨notIdle, rfl, rfl, inv_advance s, ?_⟩
  calc (s.advance.l, s.advance.r)
      = modeRound s.mode (subkey s.key s.rnd) (s.l, s.r) := rfl
    _ = modeRound s.mode (subkey s.key s.rnd) (halvesAfter s.mode s.key block s.roundsRun) := by rw [halves]
    _ = halvesAfter s.mode s.key block (s.roundsRun + 1) := (halvesAfter_succ (indices_roundsRun hp) _ _).symm
    _ = halvesAfter s.mode s.key block s.advance.roundsRun := by rw [roundsRun_advance hp]

/-- In DONE the response is the transformation of the operands that START sampled (10_state.md R39 (d)). -/
theorem inCommand_response {s : State} {op : Op} {key : Key} {block : Block} (h : s.InCommand op key block)
    (hp : s.phase = .done) : combine s.mode (s.l, s.r) = transform op block key := by
  obtain ⟨-, rfl, rfl, -, halves⟩ := h
  rw [halves, roundsRun_done hp, combine_halvesAfter]

end Sys2Proof.Proofs.Rounds
end

section
/-! What each operation leaves as it is, in every phase (10_state.md R21 to R26). -/

namespace Sys2Proof.Proofs.Frames

open Sys2Proof Sys2Proof.Machine

theorem startStep_frame (s : State) (op : Op) (key : Key) (block : Block) :
    (s.startStep op key block).host = s.host ∧ (s.startStep op key block).resets = s.resets ∧
      (s.startStep op key block).delivered = s.delivered := by
  obtain ⟨-, h⟩ | ⟨-, h⟩ := s.startStep_cases op key block <;> simp [h]

theorem roundStep_frame (s : State) :
    s.roundStep.host = s.host ∧ s.roundStep.resets = s.resets ∧ s.roundStep.delivered = s.delivered ∧
      s.roundStep.key = s.key ∧ s.roundStep.mode = s.mode := by
  obtain ⟨-, h⟩ | ⟨-, h⟩ := s.roundStep_cases <;> simp [h]

theorem rounds_frame (n : Nat) (s : State) :
    (s.rounds n).host = s.host ∧ (s.rounds n).resets = s.resets ∧ (s.rounds n).delivered = s.delivered ∧
      (s.rounds n).key = s.key ∧ (s.rounds n).mode = s.mode := by
  induction n generalizing s with
  | zero => simp [State.rounds_zero]
  | succ n ih => simp [State.rounds_succ, ih, roundStep_frame]

theorem takeStep_frame (s : State) :
    s.takeStep.host = s.host ∧ s.takeStep.resets = s.resets ∧ s.takeStep.key = s.key ∧ s.takeStep.mode = s.mode ∧
      s.takeStep.l = s.l ∧ s.takeStep.r = s.r ∧ s.takeStep.rnd = s.rnd := by
  obtain ⟨-, h⟩ | ⟨-, h⟩ := s.takeStep_cases <;> simp [h]

theorem takeStep_delivered (s : State) :
    s.takeStep.delivered = s.delivered ∨ ∃ v, s.takeStep.delivered = s.delivered ++ [v] := by
  obtain ⟨-, h⟩ | ⟨-, h⟩ := s.takeStep_cases
  · exact .inr ⟨_, by rw [h, State.deliver_delivered]⟩
  · exact .inl (by rw [h])

/-- A whole command: its START and its rounds leave the host's side, and its TAKE delivers at most one value. -/
theorem transact_frame (s : State) (op : Op) (key : Key) (block : Block) :
    (s.transact op key block).host = s.host ∧ (s.transact op key block).resets = s.resets ∧
      ((s.transact op key block).delivered = s.delivered ∨
        ∃ v, (s.transact op key block).delivered = s.delivered ++ [v]) := by
  by_cases hp : s.phase = .idle
  · rw [State.transact_idle hp]
    obtain ⟨host, resets, delivered, -, -⟩ := rounds_frame 8 (s.load op key block)
    obtain ⟨takeHost, takeResets, -⟩ := takeStep_frame ((s.load op key block).rounds 8)
    refine ⟨takeHost.trans host, takeResets.trans resets, ?_⟩
    simpa only [delivered, State.load_delivered] using takeStep_delivered ((s.load op key block).rounds 8)
  · simp [State.transact_disabled hp]

end Sys2Proof.Proofs.Frames
end

section
/-! The statements of 10_state.md. -/

namespace Sys2Proof.Proofs.StateClaims

open Sys2Proof Sys2Proof.Machine Sys2Proof.Proofs.Steps Sys2Proof.Proofs.Rounds Sys2Proof.Proofs.Frames

/-- Settles O40: only a ROUND leads to DONE, and the one that does stands at the last index. -/
theorem everyStepKeepsTheRoundIndexInvariant : Obligations.EveryStepKeepsTheRoundIndexInvariant := by
  intro s t hi hs
  by_cases hp : s.phase = .idle
  · exact inv_of_phase_ne_done (step_idle_phase_ne_done hp hs)
  · obtain ⟨-, rfl⟩ | ⟨-, -, rfl⟩ | ⟨-, -, -, rfl⟩ | ⟨-, -, -, rfl⟩ := step_inside_cases hp hs
    · exact inv_of_phase_ne_done (by simp)
    · exact inv_advance s
    · exact inv_of_phase_ne_done (by simp)
    · exact hi

/-- Settles O42: START loads the command, and each of the four steps inside one is one of the three outcomes. -/
theorem everyStepKeepsTheCommandInvariant : Obligations.EveryStepKeepsTheCommandInvariant := by
  refine ⟨fun s op key block hp => ⟨s.load op key block, ?_, inCommand_load op key block s, roundsRun_load op key block s⟩,
    fun s t op key block hc hs => ?_⟩
  · rw [exec_start, State.startStep_idle hp]
  · obtain ⟨hr, rfl⟩ | ⟨-, hp, rfl⟩ | ⟨-, hp, -, rfl⟩ | ⟨-, hp, -, rfl⟩ := step_inside_cases hc.1 hs
    · exact .inr (.inr ⟨hr, rfl, rfl⟩)
    · have count : s.advance.roundsRun = min 8 (s.roundsRun + 1) := by
        have := roundsRun_lt_eight hp
        rw [roundsRun_advance hp]
        omega
      exact .inl ⟨inCommand_advance hc hp, rfl, count⟩
    · refine .inr (.inl ⟨hp, rfl, ?_⟩)
      simp [inCommand_response hc hp]
    · exact .inl ⟨hc, rfl, by simp [roundsRun_done hp]⟩

/-- Settles O29, instruction by instruction, by the frame of its operation. -/
theorem frameOfEveryInstruction : Obligations.FrameOfEveryInstruction := by
  intro i s t h
  cases i with
  | enc key block | dec key block =>
    obtain rfl := Host.Outcome.next.inj h
    obtain ⟨host, resets, delivered⟩ := transact_frame s _ key block
    exact ⟨host, fun _ => resets, by simp, by simp, by simp, delivered⟩
  | reset =>
    obtain rfl := Host.Outcome.next.inj h
    simp
  | start op key block =>
    obtain rfl := Host.Outcome.next.inj h
    simp [startStep_frame s op key block]
  | round =>
    obtain rfl := Host.Outcome.next.inj h
    simp [roundStep_frame s]
  | take =>
    obtain rfl := Host.Outcome.next.inj h
    simp [takeStep_frame s, takeStep_delivered s]

/-- Settles O37, one cell of R28's table for each thing the ports and the phase can select. -/
theorem phaseTransitions : Obligations.PhaseTransitions := by
  intro s t hc hs
  obtain rfl := eq_of_step_ports hc hs
  rw [State.withHost_phase]
  refine ⟨fun hr => ?reset, fun hr => ⟨fun hp => ⟨fun hv => ?offer, fun hv => ?noOffer⟩,
    fun hp => ⟨fun hl => ?round, fun hl => ?lastRound⟩, fun hp => ⟨fun ht => ?take, fun ht => ?noTake⟩⟩⟩
  case reset => rw [afterPorts_rst hr, State.resetStep_phase]
  case offer => rw [afterPorts_offer hr hp hv, State.load_phase]
  case noOffer => rw [afterPorts_no_offer hr hp hv, hp]
  case round => rw [afterPorts_run hr hp]; exact if_neg hl
  case lastRound => rw [afterPorts_run hr hp]; exact if_pos hl
  case take => rw [afterPorts_take hr hp ht, State.deliver_phase]
  case noTake => rw [afterPorts_no_take hr hp ht, hp]

/-- Settles O38: of the steps inside a command only RESET writes KEY or MODE, and `rst` = 0 excludes it. -/
theorem keyAndModeAreFixedInsideACommand : Obligations.KeyAndModeAreFixedInsideACommand := by
  intro s t hp hr hs
  obtain ⟨hr', -⟩ | ⟨-, -, rfl⟩ | ⟨-, -, -, rfl⟩ | ⟨-, -, -, rfl⟩ := step_inside_cases hp hs
  · exact absurd (hr.symm.trans hr') (by decide)
  all_goals exact ⟨rfl, rfl⟩

/-- Settles O30, phase by phase; the response block is `combine` of the halves in DONE. -/
theorem outputsFollowThePhase : Obligations.OutputsFollowThePhase := by
  intro s
  refine ⟨?_, beq_iff_eq, beq_iff_eq, beq_iff_eq, fun hp => ?_, State.rspBlock_none⟩
  · cases hp : s.phase <;> simp [State.cmdReady, State.busy, State.rspValid, hp]
  · rw [State.rspBlock_done hp]
    cases s.mode <;> rfl

/-- Settles O41: the state after reset is IDLE, so there is no DONE for the invariant to speak of. -/
theorem resetStateMeetsTheInvariant : Obligations.ResetStateMeetsTheInvariant :=
  ⟨inv_of_phase_ne_done (by simp [State.reset]), rfl⟩

end Sys2Proof.Proofs.StateClaims
end

section
/-! The lanes of a block and the bytes of a record (20_memory.md R51, R52), and reads of a record as slices of its block
(00_scope.md R12). -/

namespace Sys2Proof.Proofs.Lanes

open Sys2Proof Sys2Proof.Machine Sys2Proof.Proofs.Records

theorem getElem_unpack (v : Block) (j : Nat) (hj : j < 8) : (unpack v)[j] = lane v j := by
  match j, hj with
  | 0, _ | 1, _ | 2, _ | 3, _ | 4, _ | 5, _ | 6, _ | 7, _ => rfl

/-- R51: cut off the `j` bytes below lane `j`, then the bytes above it; byte `j` is left. -/
theorem lane_pack (b : Record) (j : Nat) (hj : j < 8) : lane (pack b) j = b[j] := by
  rw [lane, pack, BitVec.extractLsb'_cast]
  match j, hj with
  | 0, _ | 1, _ | 2, _ | 3, _ | 4, _ | 5, _ | 6, _ | 7, _ =>
    simp (disch := decide) only [BitVec.extractLsb'_append_eq_of_le, BitVec.extractLsb'_append_eq_of_add_le]
    exact BitVec.extractLsb'_eq_self

/-- A block is its eight lanes: bit `i` is bit `i % 8` of lane `i / 8`. -/
theorem eq_of_lane_eq {v w : Block} (h : ∀ j < 8, lane v j = lane w j) : v = w := by
  apply BitVec.eq_of_getLsbD_eq
  intro i hi
  have bit (x : Block) : (lane x (i / 8)).getLsbD (i % 8) = x.getLsbD i := by
    have position : 8 * (i / 8) + i % 8 = i := Nat.div_add_mod i 8
    simp [lane, position, Nat.mod_lt]
  have laneInRange : i / 8 < 8 := by omega
  rw [← bit v, ← bit w, h _ laneInRange]

theorem unpack_pack (b : Record) : unpack (pack b) = b :=
  Vector.ext fun j hj => by rw [getElem_unpack, lane_pack]

theorem pack_unpack (v : Block) : pack (unpack v) = v :=
  eq_of_lane_eq fun j hj => by rw [lane_pack _ j hj, getElem_unpack]

/-- A slice of one lane more has that lane above the others. -/
theorem toNat_lanes_succ (v : Block) (a n : Nat) :
    (v.extractLsb' (8 * a) (8 * (n + 1))).toNat =
      (v.extractLsb' (8 * a) (8 * n)).toNat + (lane v (a + n)).toNat * 2 ^ (8 * n) := by
  have next : (lane v (a + n)).toNat = v.toNat / 2 ^ (8 * a) / 2 ^ (8 * n) % 2 ^ 8 := by
    rw [lane, BitVec.extractLsb'_toNat, Nat.shiftRight_eq_div_pow, Nat.mul_add, Nat.pow_add, Nat.div_div_eq_div_mul]
  rw [next, BitVec.extractLsb'_toNat, BitVec.extractLsb'_toNat, Nat.shiftRight_eq_div_pow, Nat.mul_succ, Nat.pow_add,
    Nat.mod_mul, Nat.mul_comm (2 ^ (8 * n))]

/-- The sum of bytes that R12 names is the slice of their lanes. -/
theorem sumBytes_eq (b : Record) {a n : Nat} (h : a + n ≤ 8) :
    sumBytes b a n = ((pack b).extractLsb' (8 * a) (8 * n)).toNat := by
  induction n with
  | zero => simp [sumBytes]
  | succ n ih =>
    have inRange : a + n < 8 := h
    have byte : b.toList.getD (a + n) 0#8 = b[a + n] := by simp [inRange]
    rw [sumBytes, ih inRange.le, byte, toNat_lanes_succ, lane_pack b _ inRange]

theorem memRead_of_le (b : Record) {a n : Nat} (h : a + n ≤ 8) :
    memRead b a n = some (((pack b).extractLsb' (8 * a) (8 * n)).setWidth 64) := by
  rw [memRead, if_pos h, sumBytes_eq b h, BitVec.ofNat_toNat]

theorem memRead_whole (b : Record) : memRead b 0 8 = some (pack b) := by
  simpa using memRead_of_le b (a := 0) (n := 8) (by decide)

theorem memRead_low (b : Record) : memRead b 0 4 = some ((lowHalf (pack b)).setWidth 64) :=
  memRead_of_le b (by decide)

theorem memRead_high (b : Record) : memRead b 4 4 = some ((highHalf (pack b)).setWidth 64) :=
  memRead_of_le b (by decide)

theorem memWrite_whole (b : Record) (v : Block) : memWrite b 0 8 v = some (unpack v) := by
  have bytes : putBytes v 0 8 b = unpack v := Vector.ext fun j hj => by
    have inside : 0 ≤ j ∧ j < 0 + 8 := by omega
    rw [getElem_putBytes v 0 8 b j hj, if_pos inside, getElem_unpack, Nat.sub_zero]
  rw [memWrite_of_le b v (by decide), bytes]

end Sys2Proof.Proofs.Lanes
end

section
/-! The statements of 20_memory.md. -/

namespace Sys2Proof.Proofs.MemoryClaims

open Sys2Proof Sys2Proof.Machine Sys2Proof.Proofs.Lanes

/-- Settles O18: a record is its bytes and a block is its lanes, and `pack` and `unpack` carry one to the other. -/
theorem packAndUnpackUndoEachOther : Obligations.PackAndUnpackUndoEachOther :=
  ⟨unpack_pack, pack_unpack, fun v j => getElem_unpack v j j.isLt, by decide⟩

/-- Settles O19: DEC loads the halves of ENC exchanged, so both ops name the same two reads. -/
theorem recordReadsGiveBlockAndHalves : Obligations.RecordReadsGiveBlockAndHalves := fun b =>
  ⟨memRead_whole b, memWrite_whole b, memRead_high b, memRead_low b, memRead_low b, memRead_high b⟩

end Sys2Proof.Proofs.MemoryClaims
end

section
/-! A CMD word is its three fields (30_encoding.md R71), its top bit chooses the command (R72), and nothing of it is dropped
(R77). -/

namespace Sys2Proof.Proofs.CommandWords

open Sys2Proof

theorem opField_eq (w : BitVec 129) : opField w = if w.getLsbD 128 then .dec else .enc := by
  simp only [opField, Op.ofBit, BitVec.getLsbD_eq_extractLsb', beq_iff_eq]

/-- Both values of the bit are assigned (R77), so naming the operation loses nothing. -/
theorem bit_ofBit : ∀ b : BitVec 1, (Op.ofBit b).bit = b := by decide

theorem bit_opField (w : BitVec 129) : (opField w).bit = w.extractLsb' 128 1 := bit_ofBit _

/-- The fields are adjacent, so they join to bits 0 to 128, which is the whole word. -/
theorem cmdWord_fields (w : BitVec 129) : cmdWord (opField w) (keyField w) (blockField w) = w := by
  rw [cmdWord, bit_opField, keyField, blockField,
    BitVec.extractLsb'_append_extractLsb'_eq_extractLsb' (rfl : 128 = 64 + 64),
    BitVec.extractLsb'_append_extractLsb'_eq_extractLsb' (rfl : 64 = 0 + 64)]
  exact BitVec.extractLsb'_eq_self

theorem decodeCmd_eq (w : BitVec 129) :
    decodeCmd w = if w.getLsbD 128 then .dec (keyField w) (blockField w) else .enc (keyField w) (blockField w) := by
  rw [decodeCmd, opField_eq]
  cases w.getLsbD 128 <;> rfl

theorem encode_decodeCmd (w : BitVec 129) : encode (decodeCmd w) = .cmd w := by
  have word : encode (decodeCmd w) = .cmd (cmdWord (opField w) (keyField w) (blockField w)) := by
    rw [decodeCmd]
    cases opField w <;> rfl
  rw [word, cmdWord_fields]

end Sys2Proof.Proofs.CommandWords
end

section
/-! What an EVT word selects, row by row of R73's table: the rows exclude each other, so a row that matches is the row the
decoder finds. -/

namespace Sys2Proof.Proofs.EventWords

open Sys2Proof

theorem evtMatches_iff {mask value e : BitVec 5} : evtMatches mask value e = true ↔ e &&& mask = value := beq_iff_eq

theorem isReset_of_isStart : ∀ e : BitVec 5, isStart e = true → isReset e = false := by decide

theorem others_of_isRound : ∀ e : BitVec 5, isRound e = true → isReset e = false ∧ isStart e = false := by decide

theorem others_of_isTake :
    ∀ e : BitVec 5, isTake e = true → isReset e = false ∧ isStart e = false ∧ isRound e = false := by decide

/-- A phase field of 3 is in no row but RESET, which leaves the phase open. -/
theorem rows_of_phaseThree :
    ∀ e : BitVec 5, e &&& 0b00011#5 = 0b00011#5 → isStart e = false ∧ isRound e = false ∧ isTake e = false := by decide

theorem phaseField_eq_three_iff : ∀ e : BitVec 5, (e.extractLsb' 0 2 == 3#2) = true ↔ e &&& 0b00011#5 = 0b00011#5 := by
  decide

variable {e : BitVec 5} (w : BitVec 129)

theorem decodeEvt_reset (h : isReset e = true) : decodeEvt e w = .ok .reset := if_pos h

theorem decodeEvt_start (h : isStart e = true) :
    decodeEvt e w = .ok (.start (opField w) (keyField w) (blockField w)) := by
  simp [decodeEvt, isReset_of_isStart e h, h]

theorem decodeEvt_round (h : isRound e = true) : decodeEvt e w = .ok .round := by
  simp [decodeEvt, others_of_isRound e h, h]

theorem decodeEvt_take (h : isTake e = true) : decodeEvt e w = .ok .take := by
  simp [decodeEvt, others_of_isTake e h, h]

theorem decodeEvt_phaseThree (hr : ¬ isReset e = true) (h3 : e &&& 0b00011#5 = 0b00011#5) :
    decodeEvt e w = .error .phaseThree := by
  simp [decodeEvt, hr, rows_of_phaseThree e h3, (phaseField_eq_three_iff e).mpr h3]

theorem decodeEvt_noStep (hr : ¬ isReset e = true) (hs : ¬ isStart e = true) (hn : ¬ isRound e = true)
    (ht : ¬ isTake e = true) (h3 : e &&& 0b00011#5 ≠ 0b00011#5) : decodeEvt e w = .error .noStep := by
  rw [decodeEvt, if_neg hr, if_neg hs, if_neg hn, if_neg ht, if_neg (mt (phaseField_eq_three_iff e).mp h3)]

end Sys2Proof.Proofs.EventWords
end

section
/-! The statements of 30_encoding.md. -/

namespace Sys2Proof.Proofs.EncodingClaims

open Sys2Proof Sys2Proof.Proofs.CommandWords Sys2Proof.Proofs.EventWords

/-- Settles O2: the decoder reads the word's three fields, which together are all of it. -/
theorem commandWordsDecodeByTheirTopBit : Obligations.CommandWordsDecodeByTheirTopBit := fun w =>
  ⟨congrArg Except.ok (decodeCmd_eq w), encode_decodeCmd w⟩

/-- Settles O3, row by row; the clauses write out the masks of `isReset`, `isStart`, `isRound` and `isTake`. -/
theorem eventWordsSelectTheTabledStep : Obligations.EventWordsSelectTheTabledStep := by
  intro e w
  refine ⟨fun h => ?reset, fun h => ?start, fun h => ?round, fun h => ?take, fun ⟨hr, hs, hn, ht, h3⟩ => ?noStep,
    fun ⟨hr, h3⟩ => ?phaseThree⟩
  case reset => exact decodeEvt_reset w (evtMatches_iff.mpr h)
  case start => rw [← opField_eq]; exact decodeEvt_start w (evtMatches_iff.mpr h)
  case round => exact decodeEvt_round w (evtMatches_iff.mpr h)
  case take => exact decodeEvt_take w (evtMatches_iff.mpr h)
  case noStep =>
    exact decodeEvt_noStep w (mt evtMatches_iff.mp hr) (mt evtMatches_iff.mp hs) (mt evtMatches_iff.mp hn)
      (mt evtMatches_iff.mp ht) h3
  case phaseThree => exact decodeEvt_phaseThree w (mt evtMatches_iff.mp hr) h3

/-- Settles O4: seven closed words, the EVT words each by the row of R73 that it is in. -/
theorem writtenOutWordsDecode : Obligations.WrittenOutWordsDecode := by
  refine ⟨?enc, ?dec, decodeEvt_reset _ ?reset, (decodeEvt_start _ ?start).trans ?operands, decodeEvt_round _ ?round,
    decodeEvt_take _ ?take, ?noStep⟩
  all_goals decide

end Sys2Proof.Proofs.EncodingClaims
end

section
/-! Rotations of a word of any width. A right rotation moves bit `(i + n) % w` to place `i`, and the laws of R103 follow
from the places alone; a left rotation is a right rotation by the rest of the width. -/

namespace Sys2Proof.Proofs.Rotations

variable {w : Nat}

/-- The library splits at the place where bits wrap around; modulo the width the two cases are one formula. -/
theorem getLsbD_rotateRight_of_lt_width (x : BitVec w) (n : Nat) {i : Nat} (hi : i < w) :
    (x.rotateRight n).getLsbD i = x.getLsbD ((i + n) % w) := by
  have amount : n % w < w := Nat.mod_lt n (by omega)
  rw [BitVec.getLsbD_rotateRight, Bool.cond_decide, ← Nat.add_mod_mod]
  by_cases h : i < w - n % w
  · have inRange : i + n % w < w := by omega
    rw [if_pos h, Nat.mod_eq_of_lt inRange, Nat.add_comm]
  · have wraps : i + n % w = i - (w - n % w) + w := by omega
    have place : i - (w - n % w) < w := by omega
    rw [if_neg h, wraps, Nat.add_mod_right, Nat.mod_eq_of_lt place, decide_eq_true hi, Bool.true_and]

theorem rotateLeft_eq_rotateRight (x : BitVec w) (n : Nat) : x.rotateLeft n = x.rotateRight (w - n % w) := by
  apply BitVec.eq_of_getLsbD_eq
  intro i hi
  have amount : n % w < w := Nat.mod_lt n (by omega)
  rw [getLsbD_rotateRight_of_lt_width x _ hi, BitVec.getLsbD_rotateLeft, Bool.cond_decide]
  by_cases h : i < n % w
  · have inRange : i + (w - n % w) < w := by omega
    rw [if_pos h, Nat.mod_eq_of_lt inRange, Nat.add_comm]
  · have wraps : i + (w - n % w) = i - n % w + w := by omega
    have place : i - n % w < w := by omega
    rw [if_neg h, wraps, Nat.add_mod_right, Nat.mod_eq_of_lt place, decide_eq_true hi, Bool.true_and]

theorem rotateRight_rotateRight (x : BitVec w) (a b : Nat) :
    (x.rotateRight a).rotateRight b = x.rotateRight (a + b) := by
  apply BitVec.eq_of_getLsbD_eq
  intro i hi
  have place : (i + b) % w < w := Nat.mod_lt _ (by omega)
  rw [getLsbD_rotateRight_of_lt_width _ b hi, getLsbD_rotateRight_of_lt_width x a place,
    getLsbD_rotateRight_of_lt_width x (a + b) hi, Nat.mod_add_mod, Nat.add_assoc, Nat.add_comm b]

theorem rotateRight_width_mul (x : BitVec w) (n : Nat) : x.rotateRight (w * n) = x := by
  apply BitVec.eq_of_getLsbD_eq
  intro i hi
  rw [getLsbD_rotateRight_of_lt_width x _ hi, Nat.add_mul_mod_self_left, Nat.mod_eq_of_lt hi]

theorem iterate_rotateRight (x : BitVec w) (a i : Nat) : (fun y => y.rotateRight a)^[i] x = x.rotateRight (a * i) := by
  induction i with
  | zero => exact (rotateRight_width_mul x 0).symm
  | succ i ih => rw [Function.iterate_succ_apply', ih, rotateRight_rotateRight, Nat.mul_succ]

/-- The amount of a right rotation and that of the left rotation it undoes add up to whole turns. -/
theorem amount_add_rest (hw : 0 < w) (n : Nat) : n + (w - n % w) = w * (n / w + 1) := by
  have amount : n % w < w := Nat.mod_lt n hw
  have split : w * (n / w) + n % w = n := Nat.div_add_mod n w
  rw [Nat.mul_succ]
  omega

section Inverses

variable (hw : 0 < w) (n : Nat)
include hw

theorem rotateLeft_rotateRight (x : BitVec w) : (x.rotateRight n).rotateLeft n = x := by
  rw [rotateLeft_eq_rotateRight, rotateRight_rotateRight, amount_add_rest hw, rotateRight_width_mul]

theorem rotateRight_rotateLeft (x : BitVec w) : (x.rotateLeft n).rotateRight n = x := by
  rw [rotateLeft_eq_rotateRight, rotateRight_rotateRight, Nat.add_comm, amount_add_rest hw, rotateRight_width_mul]

theorem rotateLeft_bijective : Function.Bijective fun x : BitVec w => x.rotateLeft n :=
  Function.bijective_iff_has_inverse.mpr
    ⟨fun x => x.rotateRight n, rotateRight_rotateLeft hw n, rotateLeft_rotateRight hw n⟩

theorem rotateRight_bijective : Function.Bijective fun x : BitVec w => x.rotateRight n :=
  Function.bijective_iff_has_inverse.mpr
    ⟨fun x => x.rotateLeft n, rotateLeft_rotateRight hw n, rotateRight_rotateLeft hw n⟩

end Inverses

/-- A rotation only moves bits, so it commutes with every operation that works place by place. -/
theorem rotateRight_bitwise {op : BitVec w → BitVec w → BitVec w} {f : Bool → Bool → Bool}
    (bit : ∀ x y, ∀ i < w, (op x y).getLsbD i = f (x.getLsbD i) (y.getLsbD i)) (x y : BitVec w) (n : Nat) :
    (op x y).rotateRight n = op (x.rotateRight n) (y.rotateRight n) := by
  apply BitVec.eq_of_getLsbD_eq
  intro i hi
  have place : (i + n) % w < w := Nat.mod_lt _ (by omega)
  rw [bit _ _ i hi, getLsbD_rotateRight_of_lt_width _ n hi, getLsbD_rotateRight_of_lt_width x n hi,
    getLsbD_rotateRight_of_lt_width y n hi, bit x y _ place]

theorem rotateRight_xor (x y : BitVec w) (n : Nat) : (x ^^^ y).rotateRight n = x.rotateRight n ^^^ y.rotateRight n :=
  rotateRight_bitwise (fun _ _ _ _ => BitVec.getLsbD_xor) x y n

theorem rotateRight_and (x y : BitVec w) (n : Nat) : (x &&& y).rotateRight n = x.rotateRight n &&& y.rotateRight n :=
  rotateRight_bitwise (fun _ _ _ _ => BitVec.getLsbD_and) x y n

theorem rotateRight_not (x : BitVec w) (n : Nat) : (~~~x).rotateRight n = ~~~(x.rotateRight n) :=
  rotateRight_bitwise (op := fun x _ => ~~~x) (f := fun b _ => !b) (fun _ _ i hi => by simp [hi]) x x n

theorem rotateLeft_xor (x y : BitVec w) (n : Nat) : (x ^^^ y).rotateLeft n = x.rotateLeft n ^^^ y.rotateLeft n := by
  simp only [rotateLeft_eq_rotateRight, rotateRight_xor]

theorem rotateLeft_and (x y : BitVec w) (n : Nat) : (x &&& y).rotateLeft n = x.rotateLeft n &&& y.rotateLeft n := by
  simp only [rotateLeft_eq_rotateRight, rotateRight_and]

theorem rotateLeft_not (x : BitVec w) (n : Nat) : (~~~x).rotateLeft n = ~~~(x.rotateLeft n) := by
  simp only [rotateLeft_eq_rotateRight, rotateRight_not]

end Sys2Proof.Proofs.Rotations
end

section
/-! The engine's rotations: the library rotates modulo the width as well, so each is the library's rotation by the amount
as given (40_primitives.md R92, R94, R96). -/

namespace Sys2Proof.Proofs.Primitives

open Sys2Proof.Machine Sys2Proof.Proofs.Rotations

theorem rotl32_eq (x : Half) (n : Nat) : rotl32 x n = x.rotateLeft n := BitVec.rotateLeft_mod_eq_rotateLeft

theorem rotr32_eq (x : Half) (n : Nat) : rotr32 x n = x.rotateRight n := BitVec.rotateRight_mod_eq_rotateRight

theorem rotr64_eq (y : Key) (n : Nat) : rotr64 y n = y.rotateRight n := BitVec.rotateRight_mod_eq_rotateRight

theorem rotl32_eq_rotr32 (x : Half) (n : Nat) : rotl32 x n = rotr32 x ((32 - n % 32) % 32) := by
  rw [rotl32_eq, rotr32_eq, BitVec.rotateRight_mod_eq_rotateRight, rotateLeft_eq_rotateRight]

variable {i : Nat}

theorem getLsbD_rotr32 (x : Half) (n : Nat) (hi : i < 32) :
    (rotr32 x n).getLsbD i = x.getLsbD ((i + n % 32) % 32) :=
  getLsbD_rotateRight_of_lt_width x _ hi

theorem getLsbD_rotr64 (y : Key) (n : Nat) (hi : i < 64) :
    (rotr64 y n).getLsbD i = y.getLsbD ((i + n % 64) % 64) :=
  getLsbD_rotateRight_of_lt_width y _ hi

theorem getLsbD_rotl32 (x : Half) (n : Nat) (hi : i < 32) :
    (rotl32 x n).getLsbD i = x.getLsbD ((i + (32 - n % 32)) % 32) := by
  rw [rotl32_eq, rotateLeft_eq_rotateRight, getLsbD_rotateRight_of_lt_width x _ hi]

end Sys2Proof.Proofs.Primitives
end

section
/-! The statements of 40_primitives.md. -/

namespace Sys2Proof.Proofs.PrimitiveClaims

open Sys2Proof Sys2Proof.Machine Sys2Proof.Proofs.Rotations Sys2Proof.Proofs.Primitives

/-- Settles O6, one rotation after the other. -/
theorem rotationsMoveEveryBit : Obligations.RotationsMoveEveryBit :=
  ⟨fun x n _ hi => getLsbD_rotl32 x n hi, fun x n _ hi => getLsbD_rotr32 x n hi, fun y n _ hi => getLsbD_rotr64 y n hi⟩

/-- Settles O7: R103 (a) to (e) are laws of rotation at every width, here at widths 32 and 64. -/
theorem rotationLaws : Obligations.RotationLaws := by
  refine ⟨?inverses, ?bijections, rotl32_eq_rotr32, fun h => rotl32_eq_rotr32 h 9, ?composition, ?iteration, ?not32,
    ?not64, ?xor32, ?and32, ?xorAnd64⟩
  all_goals simp only [rotl32_eq, rotr32_eq, rotr64_eq, xor32, and32, not32]
  case inverses => exact fun x a => ⟨rotateRight_rotateLeft (by decide) a x, rotateLeft_rotateRight (by decide) a x⟩
  case bijections =>
    exact fun a => ⟨rotateLeft_bijective (by decide) a, rotateRight_bijective (by decide) a,
      rotateRight_bijective (by decide) a⟩
  case composition => exact rotateRight_rotateRight
  case iteration => exact fun y i => iterate_rotateRight y 3 i
  case not32 => exact fun x a => ⟨rotateLeft_not x a, rotateRight_not x a⟩
  case not64 => exact rotateRight_not
  case xor32 => exact fun x y a => ⟨rotateLeft_xor x y a, rotateRight_xor x y a⟩
  case and32 => exact fun x y a => ⟨rotateLeft_and x y a, rotateRight_and x y a⟩
  case xorAnd64 => exact fun x y a => ⟨rotateRight_xor x y a, rotateRight_and x y a⟩

end Sys2Proof.Proofs.PrimitiveClaims
end

section
/-! The round function and the subkey: their bits, and what `F` becomes when the half or the subkey is all zeros or all
ones. At those operands a rotation does nothing, the AND selects everything or nothing, and the XOR complements or not. -/

namespace Sys2Proof.Proofs.RoundFunction

open Sys2Proof.Machine Sys2Proof.Proofs.Primitives

theorem getLsbD_roundFunction (h : Half) (k : Subkey) {i : Nat} (hi : i < 32) :
    (roundFunction h k).getLsbD i = (h.getLsbD ((i + 23) % 32) ^^ !(k.getLsbD ((i + 11) % 32) && h.getLsbD i)) := by
  have left : (rotl32 h Config.fRotl).getLsbD i = h.getLsbD ((i + 23) % 32) := getLsbD_rotl32 h _ hi
  have right : (rotr32 k Config.fRotr).getLsbD i = k.getLsbD ((i + 11) % 32) := getLsbD_rotr32 k _ hi
  simp only [roundFunction, xor32, not32, and32, BitVec.getLsbD_xor, BitVec.getLsbD_not, BitVec.getLsbD_and, left, right,
    hi, decide_true, Bool.true_and]

theorem getLsbD_subkey (key : Key) (i : Index) {j : Nat} (hj : j < 32) :
    (subkey key i).getLsbD j = key.getLsbD ((j + 3 * i.val) % 64) := by
  have rotated : (rotr64 key (scheduleAmount i)).getLsbD j = key.getLsbD ((j + 3 * i.val % 64) % 64) :=
    getLsbD_rotr64 key _ (by omega)
  rw [Nat.add_mod_mod] at rotated
  simp [subkey, trunc32, hj, rotated]

theorem rotl32_zero : rotl32 0x00000000 Config.fRotl = 0x00000000 := by decide

theorem rotl32_ones : rotl32 0xFFFFFFFF Config.fRotl = 0xFFFFFFFF := by decide

theorem rotr32_zero : rotr32 0x00000000 Config.fRotr = 0x00000000 := by decide

theorem rotr32_ones : rotr32 0xFFFFFFFF Config.fRotr = 0xFFFFFFFF := by decide

theorem roundFunction_zero_half (k : Subkey) : roundFunction 0x00000000 k = 0xFFFFFFFF := by
  have unselected : and32 (rotr32 k Config.fRotr) 0x00000000 = 0x00000000 := BitVec.and_zero
  rw [roundFunction, unselected, rotl32_zero]
  decide

theorem roundFunction_ones_half (k : Subkey) : roundFunction 0xFFFFFFFF k = rotr32 k 11 := by
  have selected : and32 (rotr32 k Config.fRotr) 0xFFFFFFFF = rotr32 k 11 := BitVec.and_allOnes
  rw [roundFunction, selected, rotl32_ones]
  exact BitVec.allOnes_xor.trans BitVec.not_not

theorem roundFunction_zero_subkey (h : Half) : roundFunction h 0x00000000 = not32 (rotl32 h 9) := by
  have unselected : and32 0x00000000 h = 0x00000000 := BitVec.zero_and
  rw [roundFunction, rotr32_zero, unselected]
  exact BitVec.xor_allOnes

theorem roundFunction_ones_subkey (h : Half) : roundFunction h 0xFFFFFFFF = xor32 (rotl32 h 9) (not32 h) := by
  have selected : and32 0xFFFFFFFF h = h := BitVec.allOnes_and
  rw [roundFunction, rotr32_ones, selected]

theorem roundFunction_ones_ones : roundFunction 0xFFFFFFFF 0xFFFFFFFF = 0xFFFFFFFF :=
  (roundFunction_ones_half _).trans rotr32_ones

/-- R114 (a): the subkey does not reach a round that starts with `R = 0`. -/
theorem encRound_zero_right (k k' : Subkey) (l : Half) : encRound k (l, 0x00000000) = encRound k' (l, 0x00000000) := by
  simp only [encRound, roundFunction_zero_half]

/-- The first round of a block with a zero low half starts with `R = 0`, so the subkey of index 0 does not matter. -/
theorem encrypt_congr_of_zero_low {block : Block} {key key' : Key} (zeroLow : lowHalf block = 0x00000000)
    (later : ∀ i : Index, i ≠ 0 → subkey key i = subkey key' i) : encrypt block key = encrypt block key' := by
  have first : encRound (subkey key 0) (highHalf block, lowHalf block) =
      encRound (subkey key' 0) (highHalf block, lowHalf block) := by
    rw [zeroLow]
    exact encRound_zero_right _ _ _
  simp (disch := decide) only [encrypt, indices, List.foldl_cons, List.foldl_nil, first, later]

/-- Key 1 has its one bit in the subkey of index 0 alone: every later rotation takes it past the low 32 bits. -/
theorem subkey_one_eq_subkey_zero : ∀ i : Index, i ≠ 0 → subkey 0x0000000000000001 i = subkey 0x0000000000000000 i := by
  decide

end Sys2Proof.Proofs.RoundFunction
end

section
/-! The statements of 41_round_function.md. -/

namespace Sys2Proof.Proofs.RoundFunctionClaims

open Sys2Proof Sys2Proof.Machine Sys2Proof.Proofs.RoundFunction

/-- Settles O8: each bit formula composes those of the rotation inside. -/
theorem roundFunctionAndSubkeyBits : Obligations.RoundFunctionAndSubkeyBits :=
  ⟨fun h k _ hi => getLsbD_roundFunction h k hi, fun key i _ hj => getLsbD_subkey key i hj⟩

/-- Settles O9: R114 (a) and (b) put the all-zero and the all-one half to one value under the all-one subkey, so `F` is not
injective, and (a) keeps key 1 from differing from key 0 on block 0. -/
theorem roundFunctionIdentities : Obligations.RoundFunctionIdentities := by
  refine ⟨roundFunction_zero_half, roundFunction_ones_half, roundFunction_zero_subkey, roundFunction_ones_subkey,
    fun injective => ?notInjective, roundFunction_zero_half _, roundFunction_ones_ones, ?keysZeroAndOne⟩
  case notInjective =>
    have collision := (roundFunction_zero_half 0xFFFFFFFF).trans roundFunction_ones_ones.symm
    exact absurd (injective collision) (by decide)
  case keysZeroAndOne => exact encrypt_congr_of_zero_low (by decide) subkey_one_eq_subkey_zero

end Sys2Proof.Proofs.RoundFunctionClaims
end

section
/-! The subkey schedule: the rotation by at most 21 brings no bit of the low 32 around the word's end, so a subkey is a
slice of the key below bit 53, and ENC and DEC read the key through the subkeys alone (42_subkey_schedule.md R122). -/

namespace Sys2Proof.Proofs.Schedule

open Sys2Proof.Machine Sys2Proof.Proofs.RoundFunction

/-- The highest key bit a subkey reads is 3 * 7 + 31. -/
theorem subkey_place_lt (i : Index) {j : Nat} (hj : j < 32) : 3 * i.val + j < 53 := by omega

/-- `getLsbD_subkey` without the wrap around bit 63, which `subkey_place_lt` rules out. -/
theorem getLsbD_subkey_slice (key : Key) (i : Index) {j : Nat} (hj : j < 32) :
    (subkey key i).getLsbD j = key.getLsbD (3 * i.val + j) := by
  have noWrap : j + 3 * i.val < 64 := by have := subkey_place_lt i hj; omega
  rw [getLsbD_subkey key i hj, Nat.mod_eq_of_lt noWrap, Nat.add_comm]

theorem subkey_eq_extractLsb' (key : Key) (i : Index) : subkey key i = key.extractLsb' (3 * i.val) 32 := by
  apply BitVec.eq_of_getLsbD_eq
  intro j hj
  rw [getLsbD_subkey_slice key i hj, BitVec.getLsbD_extractLsb', decide_eq_true hj, Bool.true_and]

theorem trunc32_ushiftRight (x : BitVec 64) (n : Nat) : trunc32 (x >>> n) = x.extractLsb' n 32 := by
  apply BitVec.eq_of_getLsbD_eq
  intro j _
  rw [trunc32, BitVec.getLsbD_extractLsb', BitVec.getLsbD_extractLsb', BitVec.getLsbD_ushiftRight, Nat.zero_add]

section Keys

variable {key key' : Key}

theorem subkey_congr (low : ∀ j, j < 53 → key.getLsbD j = key'.getLsbD j) (i : Index) : subkey key i = subkey key' i := by
  apply BitVec.eq_of_getLsbD_eq
  intro j hj
  rw [getLsbD_subkey_slice key i hj, getLsbD_subkey_slice key' i hj, low _ (subkey_place_lt i hj)]

variable (same : ∀ i : Index, subkey key i = subkey key' i) (block : Block)
include same

theorem encrypt_congr_of_subkeys : encrypt block key = encrypt block key' := by
  simp only [encrypt, same]

theorem decrypt_congr_of_subkeys : decrypt block key = decrypt block key' := by
  simp only [decrypt, same]

end Keys

end Sys2Proof.Proofs.Schedule
end

section
/-! The statement of 42_subkey_schedule.md. -/

namespace Sys2Proof.Proofs.ScheduleClaims

open Sys2Proof Sys2Proof.Machine Sys2Proof.Proofs.Schedule

/-- Settles O10: the slice and the shift read the same key bits, all below bit 53, and the transformations read no others. -/
theorem subkeysAreKeySlices : Obligations.SubkeysAreKeySlices := by
  refine ⟨subkey_eq_extractLsb', fun key i => ?shift, fun key key' low => ?topBits⟩
  case shift => exact (subkey_eq_extractLsb' key i).trans (trunc32_ushiftRight key _).symm
  case topBits =>
    have same := subkey_congr low
    exact ⟨same, fun block => ⟨encrypt_congr_of_subkeys same block, decrypt_congr_of_subkeys same block⟩⟩

end Sys2Proof.Proofs.ScheduleClaims
end

section
/-! ROUND steps counted: inside a command each one that is still due runs one more of its eight rounds (43_encrypt.md R134,
44_decrypt.md R149). -/

namespace Sys2Proof.Proofs.CountedRounds

open Sys2Proof Sys2Proof.Machine Sys2Proof.Proofs.Rounds

theorem runInstrs_replicate_round (n : Nat) (s : State) :
    runInstrs (List.replicate n .round) s = .next (s.rounds n) := by
  induction n generalizing s with
  | zero => rfl
  | succ n ih => exact ih s.roundStep

theorem runInstrs_start_rounds {s : State} (hp : s.phase = .idle) (op : Op) (key : Key) (block : Block) (n : Nat) :
    runInstrs (.start op key block :: List.replicate n .round) s = .next ((s.load op key block).rounds n) := by
  rw [← State.startStep_idle hp]
  exact runInstrs_replicate_round n _

section InCommand

variable {s : State} {op : Op} {key : Key} {block : Block} (hc : s.InCommand op key block)
include hc

theorem phase_of_inCommand_of_lt (h : s.roundsRun < 8) : s.phase = .run := by
  cases hp : s.phase with
  | idle => exact absurd hp hc.1
  | run => rfl
  | done => exact absurd (roundsRun_done hp) h.ne

theorem phase_of_inCommand_of_eq (h : s.roundsRun = 8) : s.phase = .done := by
  cases hp : s.phase with
  | idle => exact absurd hp hc.1
  | run => exact absurd h (roundsRun_lt_eight hp).ne
  | done => rfl

/-- The rounds of `State.rounds` are all due, so each one is a ROUND enabled in RUN. -/
theorem inCommand_rounds {n : Nat} (due : s.roundsRun + n ≤ 8) :
    (s.rounds n).InCommand op key block ∧ (s.rounds n).roundsRun = s.roundsRun + n := by
  induction n generalizing s with
  | zero => exact ⟨hc, rfl⟩
  | succ n ih =>
    have hp : s.phase = .run := phase_of_inCommand_of_lt hc (by omega)
    have count : s.advance.roundsRun = s.roundsRun + 1 := roundsRun_advance hp
    rw [State.rounds_succ, State.roundStep_run hp]
    obtain ⟨later, total⟩ := ih (inCommand_advance hc hp) (by omega)
    exact ⟨later, by omega⟩

end InCommand

theorem inCommand_load_rounds (s : State) (op : Op) (key : Key) (block : Block) {n : Nat} (hn : n ≤ 8) :
    ((s.load op key block).rounds n).InCommand op key block ∧ ((s.load op key block).rounds n).roundsRun = n := by
  have start := roundsRun_load op key block s
  simpa [start] using inCommand_rounds (inCommand_load op key block s) (n := n) (by omega)

end Sys2Proof.Proofs.CountedRounds
end

section
/-! ENC as a recurrence: the variables of R130's loop are the terms of the two sequences of R135 (43_encrypt.md). -/

namespace Sys2Proof.Proofs.Recurrence

open Sys2Proof Sys2Proof.Machine Sys2Proof.Proofs.Rounds

theorem indices_enc : ∀ i : Index, (indices .enc)[i.val]? = some i := by decide

theorem halvesAfter_enc_eq_recurrence {block : Block} {key : Key} {left right : Nat → Half}
    (left0 : left 0 = highHalf block) (right0 : right 0 = lowHalf block)
    (next : ∀ i : Index, left (i.val + 1) = right i.val ∧
      right (i.val + 1) = xor32 (left i.val) (roundFunction (right i.val) (subkey key i)))
    {n : Nat} (hn : n ≤ 8) : halvesAfter .enc key block n = (left n, right n) := by
  induction n with
  | zero => rw [halvesAfter_zero, left0, right0]; rfl
  | succ n ih =>
    obtain ⟨nextLeft, nextRight⟩ := next ⟨n, hn⟩
    rw [halvesAfter_succ (indices_enc ⟨n, hn⟩), ih (by omega), nextLeft, nextRight]
    rfl

end Sys2Proof.Proofs.Recurrence
end

section
/-! The statements of 43_encrypt.md. -/

namespace Sys2Proof.Proofs.EncryptClaims

open Sys2Proof Sys2Proof.Machine Sys2Proof.Proofs.Rounds Sys2Proof.Proofs.Schedule Sys2Proof.Proofs.CountedRounds
  Sys2Proof.Proofs.Recurrence

/-- Settles O43: START establishes the command invariant with no round run, each ROUND keeps it with one more, and the
invariant with the count `k` says what every register holds. -/
theorem eightRoundsComputeTheTransformation : Obligations.EightRoundsComputeTheTransformation := by
  intro s op key block k hidle hk
  refine ⟨_, runInstrs_start_rounds hidle op key block k, ?_⟩
  obtain ⟨hc, count⟩ := inCommand_load_rounds s op key block hk
  generalize (s.load op key block).rounds k = t at hc count
  have ⟨_, mode, keyKept, _, halves⟩ := hc
  refine ⟨keyKept, mode, count ▸ halves, fun hlt => ?running, fun heq => ?finished⟩
  case running =>
    have hp : t.phase = .run := phase_of_inCommand_of_lt hc (count.trans_lt hlt)
    refine ⟨hp, ?_⟩
    cases op with
    | enc => exact (roundsRun_enc hp mode).symm.trans count
    | dec =>
      have counted := roundsRun_dec hp mode
      change t.rnd.val = 7 - k
      omega
  case finished =>
    have hp : t.phase = .done := phase_of_inCommand_of_eq hc (count.trans heq)
    refine ⟨hp, by rw [State.rspBlock_done hp, inCommand_response hc hp], ?_⟩
    rw [exec_round, State.roundStep_disabled (by simp [hp])]

/-- Settles O14: ENC joins the halves after eight iterations, and the recurrence's last step rewrites them. -/
theorem encryptIsTheRecurrence : Obligations.EncryptIsTheRecurrence := by
  intro block key left right left0 right0 next
  have result : encrypt block key = joinHalves (right 8) (left 8) := by
    have joined : joinHalves _ _ = encrypt block key := combine_halvesAfter .enc key block
    rw [← joined, halvesAfter_enc_eq_recurrence left0 right0 next le_rfl]
  have last : left 8 = right 7 ∧ right 8 = xor32 (left 7) (roundFunction (right 7) (subkey key 7)) := next 7
  exact ⟨result, by rw [result, last.1, last.2]⟩

/-- Settles O17: the keys of R137 differ on block 0, and R122 (a) lets two keys that differ in bit 63 alone agree on every
block. -/
theorem someBlockTellsSomeKeysApart : Obligations.SomeBlockTellsSomeKeysApart := by
  refine ⟨⟨0x0000000000000000, 0x0000000000000000, 0xFFFFFFFFFFFFFFFF, by decide, ?apart⟩,
    ⟨0x0000000000000000, 0x8000000000000000, by decide, ?agree⟩⟩
  case apart =>
    have zeroKey : encrypt 0x0000000000000000 0x0000000000000000 = 0x00000000FFFFFFFF := by decide
    have onesKey : encrypt 0x0000000000000000 0xFFFFFFFFFFFFFFFF = 0x0000000000000000 := by decide
    rw [zeroKey, onesKey]
    decide
  case agree => exact encrypt_congr_of_subkeys (subkey_congr (by decide))

end Sys2Proof.Proofs.EncryptClaims
end

section
/-! One direction undoes the other: round by round (44_decrypt.md R148), then along any list of indices and its reverse,
and so from load to output (44_decrypt.md R150, R151). -/

namespace Sys2Proof.Proofs.Inverses

open Sys2Proof Sys2Proof.Machine

/-- The operation of the other direction. -/
def otherOp : Op → Op
  | .enc => .dec
  | .dec => .enc

/-- The loop of R130 or R145 over any list of round indices, from any halves. -/
def loop (op : Op) (key : Key) (order : List Index) (p : Half × Half) : Half × Half :=
  order.foldl (fun p i => modeRound op (subkey key i) p) p

theorem transform_eq_loop (op : Op) (block : Block) (key : Key) :
    transform op block key = combine op (loop op key (indices op) (loadHalves op block)) := by
  cases op <;> rfl

theorem xor32_xor32_cancel_right (a b : Half) : xor32 (xor32 a b) b = a := by
  rw [xor32, xor32, BitVec.xor_assoc, BitVec.xor_self, BitVec.xor_zero]

/-- Both rounds evaluate `F` on one half with one subkey, so its value cancels and `F` is never inverted. -/
theorem modeRound_otherOp (op : Op) (k : Subkey) (p : Half × Half) :
    modeRound (otherOp op) k (modeRound op k p) = p := by
  cases op with
  | enc => exact Prod.ext (xor32_xor32_cancel_right _ _) rfl
  | dec => exact Prod.ext rfl (xor32_xor32_cancel_right _ _)

/-- The last round is undone first. -/
theorem loop_otherOp_reverse (op : Op) (key : Key) (order : List Index) (p : Half × Half) :
    loop (otherOp op) key order.reverse (loop op key order p) = p := by
  induction order generalizing p with
  | nil => rfl
  | cons i rest ih =>
    calc loop (otherOp op) key (i :: rest).reverse (loop op key (i :: rest) p)
        = modeRound (otherOp op) (subkey key i)
            (loop (otherOp op) key rest.reverse (loop op key rest (modeRound op (subkey key i) p))) := by
          rw [loop, List.reverse_cons, List.foldl_append]
          rfl
      _ = p := by rw [ih, modeRound_otherOp]

theorem indices_otherOp (op : Op) : indices (otherOp op) = (indices op).reverse := by
  cases op <;> rfl

/-- Each direction's load mirrors the other's output. -/
theorem loadHalves_otherOp_combine (op : Op) (p : Half × Half) : loadHalves (otherOp op) (combine op p) = p := by
  cases op <;> simp [otherOp, loadHalves, combine]

/-- Each direction's output mirrors the other's load. -/
theorem combine_otherOp_loadHalves (op : Op) (block : Block) : combine (otherOp op) (loadHalves op block) = block := by
  cases op <;> simp [otherOp, loadHalves, combine]

theorem transform_otherOp_transform (op : Op) (block : Block) (key : Key) :
    transform (otherOp op) (transform op block key) key = block := by
  rw [transform_eq_loop, transform_eq_loop, loadHalves_otherOp_combine, indices_otherOp, loop_otherOp_reverse,
    combine_otherOp_loadHalves]

theorem decrypt_encrypt (block : Block) (key : Key) : decrypt (encrypt block key) key = block :=
  transform_otherOp_transform .enc block key

theorem encrypt_decrypt (block : Block) (key : Key) : encrypt (decrypt block key) key = block :=
  transform_otherOp_transform .dec block key

end Sys2Proof.Proofs.Inverses
end

section
/-! The two directions share one data path: with the halves exchanged a decrypt round is an encrypt round, so DEC is ENC
with the subkeys in reverse order (44_decrypt.md R152), and the two agree where that order reads alike (R155). -/

namespace Sys2Proof.Proofs.SubkeyOrder

open Sys2Proof Sys2Proof.Machine Sys2Proof.Proofs.Inverses Sys2Proof.Proofs.Schedule

theorem decRound_swap (k : Subkey) (p : Half × Half) : decRound k p.swap = (encRound k p).swap := rfl

theorem loop_dec_swap (key : Key) (order : List Index) (p : Half × Half) :
    loop .dec key order p.swap = (loop .enc key order p).swap :=
  List.foldl_hom Prod.swap fun p i => decRound_swap (subkey key i) p

/-- DEC loads and outputs the exchanged halves of ENC's load and output. -/
theorem decrypt_eq_loop_enc (block : Block) (key : Key) :
    decrypt block key = combine .enc (loop .enc key (indices .dec) (loadHalves .enc block)) :=
  calc decrypt block key
      = combine .dec (loop .dec key (indices .dec) (loadHalves .enc block).swap) := transform_eq_loop .dec block key
    _ = combine .dec (loop .enc key (indices .dec) (loadHalves .enc block)).swap := by rw [loop_dec_swap]
    _ = combine .enc (loop .enc key (indices .dec) (loadHalves .enc block)) := rfl

section Palindromes

variable {key : Key}

theorem subkey_palindrome_of_first_half (first : ∀ i : Index, i.val ≤ 3 → subkey key i = subkey key (7 - i)) (i : Index) :
    subkey key i = subkey key (7 - i) := by
  have mirror : ∀ i : Index, ¬ i.val ≤ 3 → (7 - i).val ≤ 3 ∧ 7 - (7 - i) = i := by decide
  by_cases low : i.val ≤ 3
  · exact first i low
  · obtain ⟨mirrored, back⟩ := mirror i low
    rw [first _ mirrored, back]

theorem subkey_palindrome_of_constant {k : Subkey} (const : ∀ i : Index, subkey key i = k) (i : Index) :
    subkey key i = subkey key (7 - i) :=
  (const i).trans (const (7 - i)).symm

theorem encrypt_eq_decrypt_of_palindrome (palindrome : ∀ i : Index, subkey key i = subkey key (7 - i)) (block : Block) :
    encrypt block key = decrypt block key := by
  have mirrored : indices .dec = (indices .enc).map (7 - ·) := rfl
  have sameLoop (p : Half × Half) : loop .enc key (indices .dec) p = loop .enc key (indices .enc) p := by
    simp only [loop, mirrored, List.foldl_map, ← palindrome]
  rw [decrypt_eq_loop_enc, sameLoop]
  exact transform_eq_loop .enc block key

end Palindromes

theorem subkey_zero : ∀ i : Index, subkey 0 i = 0x00000000 := by decide

theorem subkey_ones : ∀ i : Index, subkey 0xFFFFFFFFFFFFFFFF i = 0xFFFFFFFF := by decide

theorem getLsbD_ones : ∀ j < 53, (0xFFFFFFFFFFFFFFFF : Key).getLsbD j = true := by decide

end Sys2Proof.Proofs.SubkeyOrder
end

section
/-! The statements of 44_decrypt.md. -/

namespace Sys2Proof.Proofs.DecryptClaims

open Sys2Proof Sys2Proof.Machine Sys2Proof.Proofs.Inverses Sys2Proof.Proofs.Schedule Sys2Proof.Proofs.SubkeyOrder

/-- Settles O12: DEC loads what ENC put out, its rounds undo ENC's from the last to the first, and its output mirrors ENC's
load. -/
theorem decryptInvertsEncrypt : Obligations.DecryptInvertsEncrypt := decrypt_encrypt

/-- Settles O13: the argument of O12 with the roles exchanged; a function with a two-sided inverse is a bijection. -/
theorem encryptInvertsDecryptAndBothAreBijections : Obligations.EncryptInvertsDecryptAndBothAreBijections := by
  have left (key : Key) : Function.LeftInverse (fun b : Block => decrypt b key) (fun b : Block => encrypt b key) :=
    fun b => decrypt_encrypt b key
  have right (key : Key) : Function.LeftInverse (fun b : Block => encrypt b key) (fun b : Block => decrypt b key) :=
    fun c => encrypt_decrypt c key
  exact ⟨encrypt_decrypt,
    fun key => ⟨⟨(left key).injective, (right key).surjective⟩, ⟨(right key).injective, (left key).surjective⟩⟩,
    fun key => ⟨left key, right key⟩⟩

/-- Settles O11: `modeRound_otherOp` for each direction. -/
theorem roundsWithOneSubkeyUndoEachOther : Obligations.RoundsWithOneSubkeyUndoEachOther := fun k p =>
  ⟨modeRound_otherOp .enc k p, modeRound_otherOp .dec k p⟩

/-- Settles O15: `decrypt_eq_loop_enc`, with the loop and its order written out. -/
theorem decryptIsEncryptWithReversedSubkeys : Obligations.DecryptIsEncryptWithReversedSubkeys := decrypt_eq_loop_enc

/-- Settles O16: a palindromic order makes the two directions one function, which R150 makes its own inverse; a key that is
constant on bits 52 to 0 has one subkey at every index. -/
theorem palindromicKeysMakeDecryptEncrypt : Obligations.PalindromicKeysMakeDecryptEncrypt := by
  refine ⟨?selfInverse, ?constantKeys, fun i => ⟨subkey_zero i, subkey_ones i⟩, ?values⟩
  case selfInverse =>
    intro key first block
    have agree := encrypt_eq_decrypt_of_palindrome (subkey_palindrome_of_first_half first)
    exact ⟨agree block, by rw [agree (encrypt block key), decrypt_encrypt]⟩
  case constantKeys =>
    rintro key (zeros | ones)
    · refine subkey_palindrome_of_constant (k := 0x00000000) fun i => ?_
      rw [subkey_congr fun j hj => (zeros j hj).trans BitVec.getLsbD_zero.symm]
      exact subkey_zero i
    · refine subkey_palindrome_of_constant (k := 0xFFFFFFFF) fun i => ?_
      rw [subkey_congr fun j hj => (ones j hj).trans (getLsbD_ones j hj).symm, subkey_ones]
  case values => decide

end Sys2Proof.Proofs.DecryptClaims
end

section
/-! A step under driven ports, by what they and the phase select (30_encoding.md R73): the selected writes are of the
registers, so the host's list enters only as what is left of it. -/

namespace Sys2Proof.Proofs.DrivenSteps

open Sys2Proof Sys2Proof.Machine Sys2Proof.Proofs.Steps

/-- ROUND needs nothing of the host (45_sequencing_and_host.md R166): driven ports, a held command and an empty list are all
the same to it. -/
theorem step_run {s : State} (hr : s.ports.rst = false) (hp : s.phase = .run) :
    step s = .next (s.advance.withHost s.hostAfter) := by
  rw [step_ports fun _ _ _ => by simp [hp], afterPorts_run hr hp]

section Driven

variable {s : State} {p : Ports} {rest : List HostAct} (hh : s.host = .drive p :: rest)
include hh

theorem ports_of_drive : s.ports = p := by simp [State.ports, hh]

theorem hostAfter_of_drive : s.hostAfter = rest := by simp [State.hostAfter, hh]

theorem step_drive : step s = .next (s.afterPorts.withHost rest) := by
  rw [step_ports fun _ _ hw => by simp [hh] at hw, hostAfter_of_drive hh]

theorem step_drive_run (hr : p.rst = false) (hp : s.phase = .run) : step s = .next (s.advance.withHost rest) := by
  obtain rfl := ports_of_drive hh
  rw [step_drive hh, afterPorts_run hr hp]

theorem step_drive_offer (hr : p.rst = false) (hp : s.phase = .idle) (hv : p.cmdValid = true) :
    step s = .next ((s.load p.cmdOp p.cmdKey p.cmdBlock).withHost rest) := by
  obtain rfl := ports_of_drive hh
  rw [step_drive hh, afterPorts_offer hr hp hv]

theorem step_drive_no_offer (hr : p.rst = false) (hp : s.phase = .idle) (hv : p.cmdValid = false) :
    step s = .next (s.withHost rest) := by
  obtain rfl := ports_of_drive hh
  rw [step_drive hh, afterPorts_no_offer hr hp hv]

theorem step_drive_take (hr : p.rst = false) (hp : s.phase = .done) (ht : p.rspTake = true) :
    step s = .next ((s.deliver (combine s.mode (s.l, s.r))).withHost rest) := by
  obtain rfl := ports_of_drive hh
  rw [step_drive hh, afterPorts_take hr hp ht]

theorem step_drive_no_take (hr : p.rst = false) (hp : s.phase = .done) (ht : p.rspTake = false) :
    step s = .next (s.withHost rest) := by
  obtain rfl := ports_of_drive hh
  rw [step_drive hh, afterPorts_no_take hr hp ht]

end Driven

end Sys2Proof.Proofs.DrivenSteps
end

section
/-! What the writes of ROUND are in each direction (43_encrypt.md R132, 44_decrypt.md R147) and at each index
(45_sequencing_and_host.md R167). -/

namespace Sys2Proof.Proofs.Advance

open Sys2Proof Sys2Proof.Machine

variable {s : State} {op : Op}

theorem newHalves_of_mode (hm : s.mode = op) : s.newHalves = modeRound op (subkey s.key s.rnd) (s.l, s.r) := by
  rw [State.newHalves, hm]

theorem advance_last (hm : s.mode = op) (hl : s.rnd = lastIndex op) :
    s.advance.rnd = lastIndex op ∧ s.advance.phase = .done := by
  subst hm
  exact ⟨(if_pos hl).trans hl, if_pos hl⟩

theorem advance_not_last (hm : s.mode = op) (hl : s.rnd ≠ lastIndex op) :
    s.advance.rnd = nextIndex op s.rnd ∧ s.advance.phase = .run := by
  subst hm
  exact ⟨if_neg hl, if_neg hl⟩

theorem val_nextIndex_enc : ∀ i : Index, i ≠ lastIndex .enc → (nextIndex .enc i).val = i.val + 1 := by decide

theorem val_nextIndex_dec : ∀ i : Index, i ≠ lastIndex .dec → (nextIndex .dec i).val = i.val - 1 := by decide

end Sys2Proof.Proofs.Advance
end

section
/-! The statements of 45_sequencing_and_host.md. -/

namespace Sys2Proof.Proofs.SequencingClaims

open Sys2Proof Sys2Proof.Machine Sys2Proof.Proofs.DrivenSteps Sys2Proof.Proofs.Advance

/-- Settles O35: in each case both hosts select the same writes, whose operands they agree on, and leave the same list. -/
theorem unselectedInputsAreIgnored : Obligations.UnselectedInputsAreIgnored := by
  intro s p q rest hp hq unselected
  have pHost : (s.withHost (.drive p :: rest)).host = .drive p :: rest := rfl
  have qHost : (s.withHost (.drive q :: rest)).host = .drive q :: rest := rfl
  obtain run | ⟨done, sameTake⟩ | ⟨idle, pNone, qNone⟩ | ⟨idle, pOffers, sameButTake⟩ := unselected
  · rw [step_drive_run pHost hp run, step_drive_run qHost hq run]
    rfl
  · cases ht : p.rspTake with
    | true =>
      rw [step_drive_take pHost hp done ht, step_drive_take qHost hq done (sameTake.symm.trans ht)]
      rfl
    | false =>
      rw [step_drive_no_take pHost hp done ht, step_drive_no_take qHost hq done (sameTake.symm.trans ht)]
      rfl
  · rw [step_drive_no_offer pHost hp idle pNone, step_drive_no_offer qHost hq idle qNone]
    rfl
  · obtain ⟨take, rfl⟩ : ∃ take, q = { p with rspTake := take } := ⟨q.rspTake, sameButTake⟩
    rw [step_drive_offer pHost hp idle pOffers, step_drive_offer qHost hq idle pOffers]
    rfl

/-- Settles O23: START in IDLE is `State.load`, and so is the step of an offer in IDLE, with the operands on the ports. -/
theorem startLoadsTheCommand : Obligations.StartLoadsTheCommand := by
  intro s op key block idle
  refine ⟨s.load op key block, ?started, rfl, rfl, rfl, ?enc, ?dec, rfl, rfl, rfl, rfl, rfl, rfl, ?offered⟩
  case started => rw [exec_start, State.startStep_idle idle]
  case enc => rintro rfl; exact ⟨rfl, rfl, rfl⟩
  case dec => rintro rfl; exact ⟨rfl, rfl, rfl⟩
  case offered =>
    rintro p rest hh hr hv rfl rfl rfl
    exact step_drive_offer hh hr idle hv

/-- Settles O24: ROUND in RUN is `State.advance`, and so is every step in RUN that `rst` does not reset; each direction reads
off its own round and its own row of R167's table. -/
theorem roundComputesAndSequences : Obligations.RoundComputesAndSequences := by
  intro s run
  refine ⟨s.advance, ?executed, fun enc => ?enc, fun dec => ?dec, rfl, rfl, rfl, rfl, rfl, fun hr => step_run hr run⟩
  case executed => rw [exec_round, State.roundStep_run run]
  case enc =>
    rw [State.advance_l, State.advance_r, newHalves_of_mode enc]
    refine ⟨rfl, rfl, advance_last enc, fun hn => ?_⟩
    obtain ⟨next, phase⟩ := advance_not_last enc hn
    exact ⟨by rw [next, val_nextIndex_enc s.rnd hn], phase⟩
  case dec =>
    rw [State.advance_l, State.advance_r, newHalves_of_mode dec]
    refine ⟨rfl, rfl, advance_last dec, fun hn => ?_⟩
    obtain ⟨next, phase⟩ := advance_not_last dec hn
    exact ⟨by rw [next, val_nextIndex_dec s.rnd hn], phase⟩

/-- Settles O25: TAKE in DONE is `State.deliver` of the halves as MODE combines them, and so is the step of a take in DONE. -/
theorem takeDeliversTheResponse : Obligations.TakeDeliversTheResponse := by
  intro s done
  refine ⟨s.deliver (combine s.mode (s.l, s.r)), ?taken, rfl, fun enc => ?enc, fun dec => ?dec, rfl, rfl, rfl, rfl, rfl,
    rfl, rfl, rfl, State.rspBlock_none (by simp), rfl, rfl, fun p rest hh hr ht => step_drive_take hh hr done ht⟩
  case taken => rw [exec_take, State.takeStep_done done]
  case enc => rw [State.deliver_delivered, enc, combine]
  case dec => rw [State.deliver_delivered, dec, combine]

end Sys2Proof.Proofs.SequencingClaims
end

section
/-! The statement of 46_block_stream_boundary.md. -/

namespace Sys2Proof.Proofs.RecordClaims

open Sys2Proof Sys2Proof.Machine Sys2Proof.Proofs.Lanes Sys2Proof.Proofs.Inverses

/-- Settles O21: DEC restores the block of the record (R150), and a record is the unpacking of its block (R52). -/
theorem recordsSurviveTheRoundTrip : Obligations.RecordsSurviveTheRoundTrip := fun b k => by
  rw [decrypt_encrypt, unpack_pack]

end Sys2Proof.Proofs.RecordClaims
end

section
/-! Runs. Every step answers a next state (60_exceptions.md R190), so a run is taken apart at its first step or at any other,
and what every step keeps holds at the end of a run of any length. -/

namespace Sys2Proof.Proofs.Runs

open Sys2Proof Sys2Proof.Machine

theorem step_answers (s : State) : ∃ t, step s = .next t := by
  obtain ⟨_, _, -, -, h⟩ | ⟨-, h⟩ := step_cases s <;> exact ⟨_, h⟩

theorem run_succ_of_step {s t : State} (h : step s = .next t) (k : Nat) :
    Sys2Proof.core.run (k + 1) s = Sys2Proof.core.run k t := by
  have h : Sys2Proof.core.step s = .next t := h
  simp only [Host.Core.run, h]

theorem run_add_of_run {a : Nat} {s t : State} (h : Sys2Proof.core.run a s = .next t) (b : Nat) :
    Sys2Proof.core.run (a + b) s = Sys2Proof.core.run b t := by
  induction a generalizing s with
  | zero =>
    obtain rfl := Host.Outcome.next.inj h
    rw [Nat.zero_add]
  | succ a ih =>
    obtain ⟨u, hu⟩ := step_answers s
    rw [Nat.succ_add, run_succ_of_step hu]
    exact ih ((run_succ_of_step hu a).symm.trans h)

/-- The induction over runs, made once: what every step keeps holds after any number of them. -/
theorem run_keeps {P : State → Prop} (keeps : ∀ s t, P s → step s = .next t → P t) (k : Nat) {s : State} (hs : P s) :
    ∃ t, Sys2Proof.core.run k s = .next t ∧ P t := by
  induction k generalizing s with
  | zero => exact ⟨s, rfl, hs⟩
  | succ k ih =>
    obtain ⟨u, hu⟩ := step_answers s
    rw [run_succ_of_step hu]
    exact ih (keeps s u hs hu)

end Sys2Proof.Proofs.Runs
end

section
/-! A host that does not reset (70_reset_and_hazards.md R221): in RUN each of its steps is a ROUND, so the count of the
missing rounds is the count of the steps. -/

namespace Sys2Proof.Proofs.Liveness

open Sys2Proof Sys2Proof.Machine Sys2Proof.Proofs.Rounds Sys2Proof.Proofs.DrivenSteps Sys2Proof.Proofs.Runs

theorem ports_rst_of_noReset {s : State} (h : NoReset s.host) : s.ports.rst = false := by
  unfold State.ports
  split
  case h_1 => rfl
  case h_2 p rest hh =>
    rw [hh] at h
    exact h.1
  case h_3 => rfl

theorem noReset_hostAfter {s : State} (h : NoReset s.host) : NoReset s.hostAfter := by
  unfold State.hostAfter
  split
  case h_1 p rest _ hh =>
    rw [hh] at h
    exact h.2
  case h_2 w rest hh _ =>
    rw [hh] at h
    exact h
  case h_3 => exact h

/-- Stated over the number of missing rounds, which the induction counts down. -/
theorem run_missing_rounds {n : Nat} {s : State} (running : s.phase = .run) (noReset : NoReset s.host)
    (missing : s.roundsRun + n = 8) :
    (∃ t, Sys2Proof.core.run n s = .next t ∧ t.phase = .done) ∧
      ∀ j, j < n → ∃ u, Sys2Proof.core.run j s = .next u ∧ u.phase = .run := by
  induction n generalizing s with
  | zero => exact absurd missing (roundsRun_lt_eight running).ne
  | succ n ih =>
    have first (k : Nat) := run_succ_of_step (step_run (ports_rst_of_noReset noReset) running) k
    have count : s.advance.roundsRun = s.roundsRun + 1 := roundsRun_advance running
    obtain ⟨-, done, -⟩ | ⟨-, again, -⟩ := s.advance_cases
    · have last : n = 0 := by
        have := roundsRun_done done
        omega
      subst last
      exact ⟨⟨_, first 0, done⟩, fun j hj => ⟨s, by rw [Nat.lt_one_iff.mp hj]; rfl, running⟩⟩
    · have left : s.advance.roundsRun + n = 8 := by omega
      obtain ⟨finish, before⟩ := ih (s := s.advance.withHost s.hostAfter) again (noReset_hostAfter noReset) left
      refine ⟨by rwa [first], fun j hj => ?_⟩
      cases j with
      | zero => exact ⟨s, rfl, running⟩
      | succ j => rw [first]; exact before j (Nat.lt_of_succ_lt_succ hj)

end Sys2Proof.Proofs.Liveness
end

section
/-! The whole command (30_encoding.md R81): its eight rounds are all due, so its TAKE finds the transformation in DONE, and
what the host has still to do plays no part in any of its steps. -/

namespace Sys2Proof.Proofs.Transactions

open Sys2Proof Sys2Proof.Machine Sys2Proof.Proofs.Rounds Sys2Proof.Proofs.CountedRounds Sys2Proof.Proofs.Frames
  Sys2Proof.Proofs.DrivenSteps Sys2Proof.Proofs.Runs

theorem withHost_withHost (h h' : List HostAct) (s : State) : (s.withHost h).withHost h' = s.withHost h' := rfl

theorem deliver_withHost (h : List HostAct) (v : Block) (s : State) :
    (s.withHost h).deliver v = (s.deliver v).withHost h := rfl

theorem load_withHost (h : List HostAct) (op : Op) (key : Key) (block : Block) (s : State) :
    (s.withHost h).load op key block = (s.load op key block).withHost h := rfl

theorem roundStep_withHost (h : List HostAct) (s : State) : (s.withHost h).roundStep = s.roundStep.withHost h := by
  obtain ⟨hp, hs⟩ | ⟨hp, hs⟩ := s.roundStep_cases
  · rw [hs, State.roundStep_run (s := s.withHost h) hp]
    rfl
  · rw [hs, State.roundStep_disabled (s := s.withHost h) hp]

theorem rounds_withHost (h : List HostAct) (n : Nat) (s : State) : (s.withHost h).rounds n = (s.rounds n).withHost h := by
  induction n generalizing s with
  | zero => rfl
  | succ n ih => rw [State.rounds_succ, State.rounds_succ, roundStep_withHost, ih]

/-- After START and eight rounds the machine is in DONE, inside its command. -/
theorem inCommand_eight_rounds (s : State) (op : Op) (key : Key) (block : Block) :
    ((s.load op key block).rounds 8).InCommand op key block ∧ ((s.load op key block).rounds 8).phase = .done := by
  obtain ⟨hc, count⟩ := inCommand_load_rounds s op key block le_rfl
  exact ⟨hc, phase_of_inCommand_of_eq hc count⟩

theorem transact_eq_deliver {s : State} (hp : s.phase = .idle) (op : Op) (key : Key) (block : Block) :
    s.transact op key block = ((s.load op key block).rounds 8).deliver (transform op block key) := by
  obtain ⟨hc, done⟩ := inCommand_eight_rounds s op key block
  rw [State.transact_idle hp, State.takeStep_done done, inCommand_response hc done]

theorem transact_withHost {s : State} (hp : s.phase = .idle) (h : List HostAct) (op : Op) (key : Key) (block : Block) :
    (s.withHost h).transact op key block = (s.transact op key block).withHost h := by
  rw [transact_eq_deliver (s := s.withHost h) hp, transact_eq_deliver hp, load_withHost, rounds_withHost,
    deliver_withHost]

/-- Every field of the state that a command begun in IDLE leaves, but for `L` and `R` one by one. -/
theorem transact_idle_fields {s : State} (hp : s.phase = .idle) (op : Op) (key : Key) (block : Block) :
    (s.transact op key block).delivered = s.delivered ++ [transform op block key] ∧
      (s.transact op key block).phase = .idle ∧ (s.transact op key block).mode = op ∧
      (s.transact op key block).key = key ∧ (s.transact op key block).rnd = lastIndex op ∧
      combine op ((s.transact op key block).l, (s.transact op key block).r) = transform op block key ∧
      (s.transact op key block).host = s.host ∧ (s.transact op key block).resets = s.resets := by
  rw [transact_eq_deliver hp]
  obtain ⟨hc, done⟩ := inCommand_eight_rounds s op key block
  obtain ⟨host, resets, delivered, -, -⟩ := rounds_frame 8 (s.load op key block)
  generalize (s.load op key block).rounds 8 = t at *
  have response := inCommand_response hc done
  obtain ⟨-, rfl, keyKept, last, -⟩ := hc
  exact ⟨by rw [State.deliver_delivered, delivered, State.load_delivered], rfl, rfl, keyKept, last done, response, host,
    resets⟩

/-- One model step for the whole command (notes/assumptions/2.md). -/
theorem step_cmdWord {s : State} (hp : s.phase = .idle) (op : Op) (key : Key) (block : Block) (rest : List HostAct) :
    step (s.withHost (.command (cmdWord op key block) :: rest)) = .next ((s.transact op key block).withHost rest) := by
  rw [step_command (s := s.withHost _) rfl hp, opField_cmdWord, keyField_cmdWord, blockField_cmdWord,
    transact_withHost hp, withHost_withHost]

/-- While rounds are due, a host that drives nothing lets one happen in each step. -/
theorem run_undriven_rounds {n : Nat} {s : State} {op : Op} {key : Key} {block : Block} (hc : s.InCommand op key block)
    (due : s.roundsRun + n ≤ 8) (rest : List HostAct) :
    Sys2Proof.core.run n (s.withHost (List.replicate n (.drive .undriven) ++ rest)) =
      .next ((s.rounds n).withHost rest) := by
  induction n generalizing s with
  | zero => rfl
  | succ n ih =>
    have running : s.phase = .run := phase_of_inCommand_of_lt hc (by omega)
    have count : s.advance.roundsRun = s.roundsRun + 1 := roundsRun_advance running
    have first := step_drive_run (s := s.withHost (List.replicate (n + 1) (.drive .undriven) ++ rest)) rfl rfl running
    rw [run_succ_of_step first, State.rounds_succ, State.roundStep_run running]
    exact ih (inCommand_advance hc running) (by omega)

/-- START, eight ROUND and TAKE, driven one by one. -/
theorem run_commandDrives {s : State} (hp : s.phase = .idle) (op : Op) (key : Key) (block : Block) (rest : List HostAct) :
    Sys2Proof.core.run 10 (s.withHost (commandDrives op key block ++ rest)) =
      .next ((s.transact op key block).withHost rest) := by
  have start := step_drive_offer (s := s.withHost (commandDrives op key block ++ rest)) rfl rfl hp rfl
  have rounds := run_undriven_rounds (n := 8) (inCommand_load op key block s)
    (by rw [roundsRun_load]) (.drive .takeOnly :: rest)
  rw [run_succ_of_step start]
  refine (run_add_of_run rounds 1).trans ?_
  rw [State.transact_idle hp]
  obtain ⟨-, done⟩ := inCommand_eight_rounds s op key block
  generalize (s.load op key block).rounds 8 = t at done
  rw [run_succ_of_step (step_drive_take (s := t.withHost _) rfl rfl done rfl), State.takeStep_done done]
  rfl

/-- Whole commands one after another, each begun in the IDLE that the one before it leaves. -/
theorem run_commands (cmds : List (Op × Key × Block)) {s : State} (hp : s.phase = .idle) (rest : List HostAct) :
    ∃ t, Sys2Proof.core.run cmds.length
        (s.withHost (cmds.map (fun c => .command (cmdWord c.1 c.2.1 c.2.2)) ++ rest)) = .next t ∧
      t.delivered = s.delivered ++ cmds.map (fun c => transform c.1 c.2.2 c.2.1) ∧ t.phase = .idle ∧ t.host = rest := by
  induction cmds generalizing s with
  | nil => exact ⟨s.withHost rest, rfl, (List.append_nil _).symm, hp, rfl⟩
  | cons c cmds ih =>
    obtain ⟨op, key, block⟩ := c
    obtain ⟨delivered, idle, -⟩ := transact_idle_fields hp op key block
    obtain ⟨t, hrun, values, rested⟩ := ih idle
    refine ⟨t, (run_succ_of_step (step_cmdWord hp op key block _) _).trans hrun, ?_, rested⟩
    rw [values, delivered, List.append_assoc]
    rfl

end Sys2Proof.Proofs.Transactions
end

section
/-! The encoder's words and the words placed for the next step (30_encoding.md R71 to R73; notes/assumptions/6.md). -/

namespace Sys2Proof.Proofs.PlacedWords

open Sys2Proof Sys2Proof.Machine Sys2Proof.Proofs.CommandWords Sys2Proof.Proofs.EventWords

theorem decode_encode (i : Instr) : decode (encode i) = .ok i := by
  cases i with
  | enc key block | dec key block => simp [encode, decode, decodeCmd]
  | reset => exact decodeEvt_reset _ (by decide)
  | start op key block => simp [encode, decode, decodeEvt_start (e := 0b01000#5) (cmdWord op key block) (by decide)]
  | round => exact decodeEvt_round _ (by decide)
  | take => exact decodeEvt_take _ (by decide)

theorem isReset_eq_getLsbD : ∀ e : BitVec 5, isReset e = e.getLsbD 4 := by decide

/-- R29 gives three of the four values of the phase field a phase. -/
theorem phaseFor_bits {e : BitVec 5} (hr : isReset e = false) (h3 : e.extractLsb' 0 2 ≠ 3#2) (s : State) :
    (phaseFor e s).bits = e.extractLsb' 0 2 := by
  have values : ∀ b : BitVec 2, b = 0#2 ∨ b = 1#2 ∨ b = 2#2 ∨ b = 3#2 := by decide
  obtain h | h | h | h := values (e.extractLsb' 0 2)
  case inr.inr.inr => exact absurd h h3
  all_goals simp [phaseFor, hr, h, Phase.bits]

theorem word_of_bits : ∀ e : BitVec 5,
    BitVec.ofBool (e.getLsbD 4) ++ BitVec.ofBool (e.getLsbD 3) ++ BitVec.ofBool (e.getLsbD 2) ++ e.extractLsb' 0 2 = e := by
  decide

/-- Ports and phase made from an EVT word show that word again. -/
theorem evt_ofEvt {e : BitVec 5} (hr : isReset e = false) (h3 : e.extractLsb' 0 2 ≠ 3#2) (w : BitVec 129) (s : State) :
    (Ports.ofEvt e w).evt (phaseFor e s) = e := by
  rw [Ports.evt, evtWord, phaseFor_bits hr h3]
  exact word_of_bits e

/-- A phase field of 3 with `rst` = 0 decodes to no instruction (item I10). -/
theorem phaseField_ne_three_of_decodeEvt {e : BitVec 5} {w : BitVec 129} {i : Instr} (hr : isReset e = false)
    (h : decodeEvt e w = .ok i) : e.extractLsb' 0 2 ≠ 3#2 := by
  intro h3
  have rejected := decodeEvt_phaseThree w (by simp [hr]) ((phaseField_eq_three_iff e).mp (beq_iff_eq.mpr h3))
  simp [rejected] at h

theorem fetch_place_evt {e : BitVec 5} {w : BitVec 129} {i : Instr} (h : decodeEvt e w = .ok i) (s : State) :
    (s.place (.evt e w)).fetch = .ok i := by
  change decodeEvt ((Ports.ofEvt e w).evt (phaseFor e s)) (cmdWord (opField w) (keyField w) (blockField w)) = .ok i
  rw [cmdWord_fields]
  cases hr : isReset e with
  | true =>
    have rst : (Ports.ofEvt e w).rst = true := (isReset_eq_getLsbD e).symm.trans hr
    rw [decodeEvt_evt, if_pos rst, ← h, decodeEvt_reset w hr]
  | false => rw [evt_ofEvt hr (phaseField_ne_three_of_decodeEvt hr h), h]

theorem fetch_place {x : Encoded} {i : Instr} (h : decode x = .ok i) (s : State) : (s.place x).fetch = .ok i := by
  cases x with
  | cmd w => exact h
  | evt e w => exact fetch_place_evt h s

/-- A table word that decodes is the word of one of the two formats. -/
theorem readWord_of_decodeTableWord {nbits w : Nat} {i : Instr} (h : decodeTableWord nbits w = some i) :
    ∃ x, readWord nbits w = .ok x ∧ decode x = .ok i := by
  unfold decodeTableWord decodeWord at h
  cases hx : readWord nbits w with
  | error r => simp [hx] at h
  | ok x =>
    cases hi : decode x with
    | error r => simp [hx, hi] at h
    | ok j =>
      simp only [hx, hi, Option.some.injEq] at h
      exact ⟨x, rfl, by rw [hi, h]⟩

end Sys2Proof.Proofs.PlacedWords
end

section
/-! The statements of 30_encoding.md about encoded instructions and placed words. -/

namespace Sys2Proof.Proofs.PlacementClaims

open Sys2Proof Sys2Proof.Machine Sys2Proof.Proofs.PlacedWords

/-- Settles O1, instruction by instruction: the fields of its CMD word, or the row of its EVT word. -/
theorem decodeOfEncodeIsTheInstruction : Obligations.DecodeOfEncodeIsTheInstruction := fun i _ => decode_encode i

/-- Settles O5: the placed ports and phase show the word itself, or RESET, which any phase lets happen. -/
theorem placedWordIsTheNextInstruction : Obligations.PlacedWordIsTheNextInstruction := by
  intro s nbits w i h
  obtain ⟨x, read, decoded⟩ := readWord_of_decodeTableWord h
  rw [State.withFetchWord, read]
  exact fetch_place decoded s

end Sys2Proof.Proofs.PlacementClaims
end

section
/-! The statements about whole commands and about a command's end, from 30_encoding.md section 4, 45_sequencing_and_host.md
and 70_reset_and_hazards.md section 4. -/

namespace Sys2Proof.Proofs.CommandClaims

open Sys2Proof Sys2Proof.Machine Sys2Proof.Proofs.Rounds Sys2Proof.Proofs.Inverses Sys2Proof.Proofs.Runs
  Sys2Proof.Proofs.Liveness Sys2Proof.Proofs.Transactions

/-- Settles O44: `run_missing_rounds` for the number of rounds that `State.roundsRun` says are missing. -/
theorem startedCommandFinishes : Obligations.StartedCommandFinishes := fun _ running noReset =>
  run_missing_rounds running noReset (Nat.add_sub_of_le (roundsRun_lt_eight running).le)

/-- Settles O45: both forms carry out `State.transact` and use up their own entries of the host's list. -/
theorem commandIsTenSteps : Obligations.CommandIsTenSteps := by
  intro s op key block rest idle
  rw [run_commandDrives idle, run_succ_of_step (step_cmdWord idle op key block rest)]
  rfl

/-- Settles O46, by induction on the list of commands (`run_commands`). -/
theorem responsesComeInCommandOrder : Obligations.ResponsesComeInCommandOrder := by
  intro cmds s rest idle
  obtain ⟨t, hrun, delivered, ended, rfl⟩ := run_commands cmds idle rest
  exact ⟨t, hrun, delivered, ended, rfl, And.right, And.intro ended⟩

/-- Settles O26: the fields of `transact_idle_fields` with `op` = ENC. -/
theorem encCommandDeliversEncrypt : Obligations.EncCommandDeliversEncrypt := fun _ key block idle =>
  ⟨_, exec_enc key block _, transact_idle_fields idle .enc key block⟩

/-- Settles O27: the fields of `transact_idle_fields` with `op` = DEC. -/
theorem decCommandDeliversDecrypt : Obligations.DecCommandDeliversDecrypt := fun _ key block idle =>
  ⟨_, exec_dec key block _, transact_idle_fields idle .dec key block⟩

/-- Settles O47: DEC begins in the IDLE that ENC ends in, and R150 gives the value it delivers. -/
theorem machineRoundTripRestoresTheBlock : Obligations.MachineRoundTripRestoresTheBlock := by
  intro s key block idle
  obtain ⟨encDelivered, encIdle, -⟩ := transact_idle_fields idle .enc key block
  obtain ⟨decDelivered, decIdle, -⟩ := transact_idle_fields encIdle .dec key (encrypt block key)
  refine ⟨_, _, exec_enc key block s, exec_dec key (encrypt block key) _, ?_, decIdle⟩
  rw [decDelivered, encDelivered, transform, transform, decrypt_encrypt, List.append_assoc]
  rfl

end Sys2Proof.Proofs.CommandClaims
end

section
/-! Several instances (60_exceptions.md R204): a step is a total function of one engine's own state, applied at its
place in the list. -/

namespace Sys2Proof.Proofs.Instances

open Sys2Proof Sys2Proof.Machine Sys2Proof.Proofs.Runs

/-- The state a step answers; every step answers one (`step_eq_nextState`). -/
def nextState (s : State) : State :=
  match step s with
  | .next t => t
  | .fault _ => s
  | .refused _ => s

theorem step_eq_nextState (s : State) : step s = .next (nextState s) := by
  obtain ⟨t, h⟩ := step_answers s
  simp [nextState, h]

theorem stepInstance_eq_modify (k : Nat) (ss : List State) : stepInstance k ss = .next (ss.modify k nextState) := by
  rw [stepInstance, List.modify_eq_set_getElem?]
  cases ss[k]? with
  | none => rfl
  | some s => simp [step_eq_nextState]

theorem runInstances_pair (j k : Nat) (ss : List State) :
    runInstances [j, k] ss = .next ((ss.modify j nextState).modify k nextState) := by
  simp [runInstances, stepInstance_eq_modify]

end Sys2Proof.Proofs.Instances
end

section
/-! The statements of 60_exceptions.md. -/

namespace Sys2Proof.Proofs.ExceptionClaims

open Sys2Proof Sys2Proof.Machine Sys2Proof.Proofs.Steps Sys2Proof.Proofs.DrivenSteps Sys2Proof.Proofs.EventWords
  Sys2Proof.Proofs.Runs Sys2Proof.Proofs.Instances

/-- Settles O32: `Fault` has no constructor, and every step answers a next state, so a run stops nowhere. -/
theorem everyRunIsSafe : Obligations.EveryRunIsSafe := by
  refine ⟨fun r => (nomatch r), fun s k => ?_⟩
  obtain ⟨t, h, -⟩ := run_keeps (P := fun _ => True) (fun _ _ _ _ => trivial) k (s := s) trivial
  exact ⟨t, h⟩

/-- Settles O51: an engine's step modifies its own place in the list, and modifications of two places commute. -/
theorem instancesShareNothing : Obligations.InstancesShareNothing := by
  refine ⟨fun k ss s hk => ⟨_, _, step_eq_nextState s, stepInstance_eq_modify k ss, ?own, fun j hj => ?others⟩,
    fun j k ss hjk => ?commute⟩
  case own => rw [List.getElem?_modify_eq, hk]; rfl
  case others => exact List.getElem?_modify_ne _ _ hj.symm
  case commute => rw [runInstances_pair, runInstances_pair, List.modify_modify_ne _ _ _ hjk]

/-- Settles O33: `rst` decides first, and of the other rows no two match one word. -/
theorem resetWins : Obligations.ResetWins := by
  refine ⟨fun s p rest hh hr => ⟨s.resetStep, exec_reset s, ?_⟩, fun e _ => ⟨?_, ?_, ?_⟩⟩
  · rw [step_drive hh, afterPorts_rst (by rwa [ports_of_drive hh])]
  · exact (isRound e).eq_false_or_eq_true.imp_left fun h => (others_of_isRound e h).2
  · exact (isTake e).eq_false_or_eq_true.imp_left fun h => (others_of_isTake e h).2.1
  · exact (isTake e).eq_false_or_eq_true.imp_left fun h => (others_of_isTake e h).2.2

/-- Settles O34, phase by phase; the TAKE leaves the IDLE in which an offer that is still present starts. -/
theorem offerAndTakeTogether : Obligations.OfferAndTakeTogether := by
  intro s p rest hh hr hv ht
  refine ⟨fun done => ?done, fun idle => ?idle, fun run => ?run⟩
  case done =>
    refine ⟨s.deliver (combine s.mode (s.l, s.r)), ?_, step_drive_take hh hr done ht, ?offerStays⟩
    · rw [exec_take, State.takeStep_done done]
    case offerStays =>
      rintro q rest' rfl hqr hqv
      refine ⟨(s.deliver (combine s.mode (s.l, s.r))).load q.cmdOp q.cmdKey q.cmdBlock, ?_,
        step_drive_offer rfl hqr rfl hqv, rfl⟩
      rw [exec_start, State.startStep_idle rfl]
  case idle => exact ⟨_, by rw [exec_start, State.startStep_idle idle], step_drive_offer hh hr idle hv⟩
  case run => exact ⟨_, by rw [exec_round, State.roundStep_run run], step_drive_run hh hr run⟩

end Sys2Proof.Proofs.ExceptionClaims
end

section
/-! The control registers (45_sequencing_and_host.md R168, 70_reset_and_hazards.md R223): what a step makes of PHASE, MODE
and RND it reads off PHASE, MODE, RND, the host and the count of resets alone. -/

namespace Sys2Proof.Proofs.Control

open Sys2Proof Sys2Proof.Machine Sys2Proof.Proofs.Steps Sys2Proof.Proofs.Transactions

/-- Two states that agree on all but KEY, L, R and what has been delivered. -/
def SameControl (s u : State) : Prop :=
  s.phase = u.phase ∧ s.mode = u.mode ∧ s.rnd = u.rnd ∧ s.host = u.host ∧ s.resets = u.resets

variable {s u : State} (h : SameControl s u)
include h

theorem sameControl_withHost (rest : List HostAct) : SameControl (s.withHost rest) (u.withHost rest) := by
  obtain ⟨phase, mode, rnd, -, resets⟩ := h
  exact ⟨phase, mode, rnd, rfl, resets⟩

theorem sameControl_load (op : Op) (key key' : Key) (block block' : Block) :
    SameControl (s.load op key block) (u.load op key' block') := by
  obtain ⟨-, -, -, host, resets⟩ := h
  exact ⟨rfl, rfl, rfl, host, resets⟩

/-- R167 decides the next index and the next phase by MODE and RND. -/
theorem sameControl_advance : SameControl s.advance u.advance := by
  obtain ⟨-, mode, rnd, host, resets⟩ := h
  refine ⟨?_, mode, ?_, host, resets⟩
  · rw [State.advance_phase, State.advance_phase, State.newPhase, State.newPhase, mode, rnd]
  · rw [State.advance_rnd, State.advance_rnd, State.newRnd, State.newRnd, mode, rnd]

theorem sameControl_deliver (v v' : Block) : SameControl (s.deliver v) (u.deliver v') := by
  obtain ⟨-, mode, rnd, host, resets⟩ := h
  exact ⟨rfl, mode, rnd, host, resets⟩

/-- The free values after a RESET have the count of resets as their argument (notes/assumptions/4.md). -/
theorem sameControl_resetStep : SameControl s.resetStep u.resetStep := by
  obtain ⟨-, -, -, host, resets⟩ := h
  exact ⟨rfl, congrArg Config.resetMode resets, congrArg Config.resetRnd resets, host, congrArg (· + 1) resets⟩

theorem sameControl_transact (hp : s.phase = .idle) (op : Op) (key key' : Key) (block block' : Block) :
    SameControl (s.transact op key block) (u.transact op key' block') := by
  obtain ⟨phase, -, -, host, resets⟩ := h
  obtain ⟨-, sPhase, sMode, -, sRnd, -, sHost, sResets⟩ := transact_idle_fields hp op key block
  obtain ⟨-, uPhase, uMode, -, uRnd, -, uHost, uResets⟩ := transact_idle_fields (phase ▸ hp) op key' block'
  refine ⟨sPhase.trans uPhase.symm, sMode.trans uMode.symm, sRnd.trans uRnd.symm, ?_, ?_⟩
  · rw [sHost, uHost, host]
  · rw [sResets, uResets, resets]

theorem ports_eq_of_sameControl : s.ports = u.ports := by
  obtain ⟨-, -, -, host, -⟩ := h
  rw [State.ports, State.ports, host]

theorem hostAfter_eq_of_sameControl : s.hostAfter = u.hostAfter := by
  obtain ⟨phase, -, -, host, -⟩ := h
  rw [State.hostAfter, State.hostAfter, host, phase]

theorem sameControl_afterPorts : SameControl s.afterPorts u.afterPorts := by
  have ports := ports_eq_of_sameControl h
  have phase : s.phase = u.phase := h.1
  cases hr : u.ports.rst with
  | true =>
    rw [afterPorts_rst (ports ▸ hr), afterPorts_rst hr]
    exact sameControl_resetStep h
  | false =>
    have hr' : s.ports.rst = false := ports ▸ hr
    cases hp : u.phase with
    | idle =>
      cases hv : u.ports.cmdValid with
      | true =>
        rw [afterPorts_offer hr' (phase.trans hp) (ports ▸ hv), afterPorts_offer hr hp hv, ports]
        exact sameControl_load h _ _ _ _ _
      | false =>
        rwa [afterPorts_no_offer hr' (phase.trans hp) (ports ▸ hv), afterPorts_no_offer hr hp hv]
    | run =>
      rw [afterPorts_run hr' (phase.trans hp), afterPorts_run hr hp]
      exact sameControl_advance h
    | done =>
      cases ht : u.ports.rspTake with
      | true =>
        rw [afterPorts_take hr' (phase.trans hp) (ports ▸ ht), afterPorts_take hr hp ht]
        exact sameControl_deliver h _ _
      | false =>
        rwa [afterPorts_no_take hr' (phase.trans hp) (ports ▸ ht), afterPorts_no_take hr hp ht]

theorem sameControl_step {s' u' : State} (hs : step s = .next s') (hu : step u = .next u') : SameControl s' u' := by
  have ⟨phase, _, _, host, _⟩ := h
  obtain ⟨w, rest, hh, hp, stepped⟩ | ⟨hc, -⟩ := step_cases s
  · obtain rfl := Host.Outcome.next.inj (stepped.symm.trans hs)
    obtain rfl := Host.Outcome.next.inj ((step_command (host ▸ hh) (phase ▸ hp)).symm.trans hu)
    exact sameControl_withHost (sameControl_transact h hp _ _ _ _ _) rest
  · have hc' : ∀ w rest, u.host = .command w :: rest → u.phase ≠ .idle := by rwa [← host, ← phase]
    rw [eq_of_step_ports hc hs, eq_of_step_ports hc' hu, hostAfter_eq_of_sameControl h]
    exact sameControl_withHost (sameControl_afterPorts h) _

end Sys2Proof.Proofs.Control
end

section
/-! What the operations that write all six registers leave does not depend on any of them (10_state.md R37). -/

namespace Sys2Proof.Proofs.FreshRegisters

open Sys2Proof Sys2Proof.Machine

section Agreeing

variable {s u : State} (host : s.host = u.host) (delivered : s.delivered = u.delivered) (resets : s.resets = u.resets)
include host delivered resets

theorem resetStep_congr : s.resetStep = u.resetStep := by
  simp only [State.resetStep, host, delivered, resets]

theorem load_congr (op : Op) (key : Key) (block : Block) : s.load op key block = u.load op key block := by
  simp only [State.load, host, delivered, resets]

theorem transact_congr (hs : s.phase = .idle) (hu : u.phase = .idle) (op : Op) (key : Key) (block : Block) :
    s.transact op key block = u.transact op key block := by
  rw [State.transact_idle hs, State.transact_idle hu, load_congr host delivered resets]

end Agreeing

end Sys2Proof.Proofs.FreshRegisters
end

section
/-! Scripts (30_encoding.md R79 to R81): what each one-step statement makes of a state that meets its requirement. -/

namespace Sys2Proof.Proofs.Scripts

open Sys2Proof Sys2Proof.Machine Sys2Proof.Proofs.Rounds Sys2Proof.Proofs.CountedRounds Sys2Proof.Proofs.Transactions

theorem run_start {s : State} (hp : s.phase = .idle) (op : Op) (key : Key) (block : Block) :
    (Stmt.start op key block).run s = some (s.load op key block) := by
  simp [Stmt.run, Stmt.requires, Stmt.instr, State.cmdReady, hp, State.startStep_idle hp]

theorem run_start_disabled {s : State} (hp : s.phase ≠ .idle) (op : Op) (key : Key) (block : Block) :
    (Stmt.start op key block).run s = none := by
  simp [Stmt.run, Stmt.requires, State.cmdReady, hp]

theorem run_round {s : State} (hp : s.phase = .run) (n : Nat) : (Stmt.round n).run s = some s.advance := by
  simp [Stmt.run, Stmt.requires, Stmt.instr, State.busy, hp, State.roundStep_run hp]

theorem run_take_none {s : State} (hp : s.phase = .done) : (Stmt.take none).run s = some s.takeStep := by
  simp [Stmt.run, Stmt.requires, Stmt.instr, State.rspValid, hp]

theorem run_take_some {s : State} {w : Block} (hw : s.rspBlock = some w) (v : Block) :
    (Stmt.take (some v)).run s = if v = w then some s.takeStep else none := by
  simp [Stmt.run, Stmt.requires, Stmt.instr, hw, eq_comm (a := v)]

theorem runExpanded_cons {s t : State} {st : Stmt} (h : st.run s = some t) (rest : List Stmt) :
    runExpanded (st :: rest) s = runExpanded rest t := by
  rw [runExpanded, h]

theorem runExpanded_singleton (st : Stmt) (s : State) : runExpanded [st] s = st.run s := by
  rw [runExpanded]
  cases st.run s <;> rfl

/-- Rounds that are still due find the machine in RUN, as their statements require. -/
theorem runExpanded_rounds {n : Nat} {s : State} {op : Op} {key : Key} {block : Block} (hc : s.InCommand op key block)
    (due : s.roundsRun + n ≤ 8) (rest : List Stmt) :
    runExpanded (List.replicate n (.round 1) ++ rest) s = runExpanded rest (s.rounds n) := by
  induction n generalizing s with
  | zero => rfl
  | succ n ih =>
    have running : s.phase = .run := phase_of_inCommand_of_lt hc (by omega)
    have count : s.advance.roundsRun = s.roundsRun + 1 := roundsRun_advance running
    rw [State.rounds_succ, State.roundStep_run running]
    exact (runExpanded_cons (run_round running 1) _).trans (ih (inCommand_advance hc running) (by omega))

theorem runScript_command (op : Op) (key : Key) (block : Block) (expect : Option Block) (s : State) :
    runScript [.command op key block expect] s =
      runExpanded (.start op key block :: (List.replicate 8 (.round 1) ++ [.take expect])) s := rfl

/-- The bare command's expansion is the expansion of its three statements. -/
theorem runScript_three_statements (op : Op) (key : Key) (block : Block) (expect : Option Block) (s : State) :
    runScript [.start op key block, .round 8, .take expect] s = runScript [.command op key block expect] s := rfl

theorem runScript_command_disabled {s : State} (hp : s.phase ≠ .idle) (op : Op) (key : Key) (block : Block)
    (expect : Option Block) : runScript [.command op key block expect] s = none := by
  rw [runScript_command, runExpanded, run_start_disabled hp]

/-- In IDLE only the last statement, the TAKE, can find that its requirement does not hold. -/
theorem runScript_command_idle {s : State} (hp : s.phase = .idle) (op : Op) (key : Key) (block : Block)
    (expect : Option Block) :
    runScript [.command op key block expect] s = (Stmt.take expect).run ((s.load op key block).rounds 8) := by
  rw [runScript_command, runExpanded_cons (run_start hp op key block),
    runExpanded_rounds (inCommand_load op key block s) (by rw [roundsRun_load]), runExpanded_singleton]

theorem runScript_command_none {s : State} (hp : s.phase = .idle) (op : Op) (key : Key) (block : Block) :
    runScript [.command op key block none] s = some (s.transact op key block) := by
  obtain ⟨-, done⟩ := inCommand_eight_rounds s op key block
  rw [runScript_command_idle hp, run_take_none done, State.transact_idle hp]

theorem runScript_command_some {s : State} (hp : s.phase = .idle) (op : Op) (key : Key) (block v : Block) :
    runScript [.command op key block (some v)] s =
      if v = transform op block key then some (s.transact op key block) else none := by
  obtain ⟨hc, done⟩ := inCommand_eight_rounds s op key block
  have response : ((s.load op key block).rounds 8).rspBlock = some (transform op block key) := by
    rw [State.rspBlock_done done, inCommand_response hc done]
  rw [runScript_command_idle hp, run_take_some response, State.transact_idle hp]

end Sys2Proof.Proofs.Scripts
end

section
/-! Steps in IDLE and held offers (45_sequencing_and_host.md R163, R164, R172). -/

namespace Sys2Proof.Proofs.IdleSteps

open Sys2Proof Sys2Proof.Machine Sys2Proof.Proofs.Steps Sys2Proof.Proofs.Runs

/-- EVERYTHING A STEP CAN DO in IDLE: a whole command, RESET, START, or nothing while there is no offer. -/
theorem step_idle_cases {s t : State} (hp : s.phase = .idle) (hs : step s = .next t) :
    (∃ w rest, s.host = .command w :: rest ∧
      t = (s.transact (opField w) (keyField w) (blockField w)).withHost rest) ∨
    (s.ports.rst = true ∧ t = s.resetStep.withHost s.hostAfter) ∨
    (s.ports.rst = false ∧ s.ports.cmdValid = true ∧
      t = (s.load s.ports.cmdOp s.ports.cmdKey s.ports.cmdBlock).withHost s.hostAfter) ∨
    (s.ports.rst = false ∧ s.ports.cmdValid = false ∧ t = s.withHost s.hostAfter) := by
  obtain ⟨w, rest, hh, -, stepped⟩ | ⟨hc, -⟩ := step_cases s
  · exact .inl ⟨w, rest, hh, Host.Outcome.next.inj (hs.symm.trans stepped)⟩
  · have ht := eq_of_step_ports hc hs
    cases hr : s.ports.rst with
    | true => exact .inr (.inl ⟨rfl, by rw [ht, afterPorts_rst hr]⟩)
    | false =>
      cases hv : s.ports.cmdValid with
      | true => exact .inr (.inr (.inl ⟨rfl, rfl, by rw [ht, afterPorts_offer hr hp hv]⟩))
      | false => exact .inr (.inr (.inr ⟨rfl, rfl, by rw [ht, afterPorts_no_offer hr hp hv]⟩))

section Held

variable {s : State} {w : BitVec 129} {rest : List HostAct} (hh : s.host = .command w :: rest)
include hh

theorem ports_of_command : s.ports = .offer w := by simp [State.ports, hh]

/-- The offer stays up until it is accepted (R164). -/
theorem hostAfter_of_held (hp : s.phase ≠ .idle) : s.hostAfter = s.host := by
  cases hq : s.phase with
  | idle => exact absurd hq hp
  | run | done => simp [State.hostAfter, hh, hq]

theorem step_held_run (hp : s.phase = .run) : step s = .next s.advance := by
  rw [step_ports fun _ _ _ => by simp [hp], hostAfter_of_held hh (by simp [hp]),
    afterPorts_run (by rw [ports_of_command hh]; rfl) hp]
  rfl

theorem step_held_done (hp : s.phase = .done) : step s = .next s := by
  rw [step_ports fun _ _ _ => by simp [hp], hostAfter_of_held hh (by simp [hp]),
    afterPorts_no_take (by rw [ports_of_command hh]; rfl) hp (by rw [ports_of_command hh]; rfl)]
  rfl

end Held

/-- A final state stays final whichever of its two steps it takes, and neither delivers. -/
theorem isFinal_step {s t : State} (h : s.isFinal) (hs : step s = .next t) : t.isFinal ∧ t.delivered = s.delivered := by
  obtain ⟨idle, noOffer⟩ := h
  obtain rfl := Host.Outcome.next.inj ((step_no_offer idle noOffer).symm.trans hs)
  have noOfferAfter : NoOffer s.hostAfter := fun a ha => noOffer a (mem_of_mem_hostAfter ha)
  cases s.ports.rst with
  | true => exact ⟨⟨rfl, noOfferAfter⟩, rfl⟩
  | false => exact ⟨⟨idle, noOfferAfter⟩, rfl⟩

end Sys2Proof.Proofs.IdleSteps
end

section
/-! The statements about single steps and about their order, from 10_state.md, 30_encoding.md section 4,
45_sequencing_and_host.md and 70_reset_and_hazards.md. -/

namespace Sys2Proof.Proofs.StepClaims

open Sys2Proof Sys2Proof.Machine Sys2Proof.Proofs.Steps Sys2Proof.Proofs.CommandWords Sys2Proof.Proofs.DrivenSteps
  Sys2Proof.Proofs.Runs Sys2Proof.Proofs.Transactions Sys2Proof.Proofs.Control Sys2Proof.Proofs.FreshRegisters
  Sys2Proof.Proofs.Scripts Sys2Proof.Proofs.IdleSteps

/-- Settles O39: in IDLE only a whole command delivers, and inside a command only the TAKE. -/
theorem onlyResponsesAreDelivered : Obligations.OnlyResponsesAreDelivered := by
  intro s t hs
  by_cases hp : s.phase = .idle
  · obtain ⟨w, rest, hh, rfl⟩ | ⟨-, rfl⟩ | ⟨-, -, rfl⟩ | ⟨-, -, rfl⟩ := step_idle_cases hp hs
    · obtain ⟨delivered, ended, -⟩ := transact_idle_fields hp (opField w) (keyField w) (blockField w)
      exact .inr (.inr ⟨_, _, _, rest, by rw [cmdWord_fields, hh], hp, ended, delivered⟩)
    all_goals exact .inl rfl
  · obtain ⟨-, rfl⟩ | ⟨-, -, rfl⟩ | ⟨hr, done, ht, rfl⟩ | ⟨-, -, -, rfl⟩ := step_inside_cases hp hs
    case inr.inr.inl => exact .inr (.inl ⟨_, rfl, rfl, done, hr, ht, State.rspBlock_done done⟩)
    all_goals exact .inl rfl

/-- Settles O49: a step keeps two states in agreement on `SameControl`. -/
theorem sequencingIgnoresTheData : Obligations.SequencingIgnoresTheData :=
  fun _ _ _ _ phase mode rnd host resets hs hu => sameControl_step ⟨phase, mode, rnd, host, resets⟩ hs hu

/-- Settles O50: all three forms carry out `State.transact`, and the asserted value is compared with what its TAKE finds. -/
theorem scriptCommandIsItsExpansion : Obligations.ScriptCommandIsItsExpansion := by
  intro s op key block v
  refine ⟨fun idle => ⟨?instruction, runScript_command_none idle op key block, ?threeStatements,
    runScript_command_some idle op key block v⟩, fun busy => runScript_command_disabled busy op key block none⟩
  case instruction => cases op <;> rfl
  case threeStatements => rw [runScript_three_statements, runScript_command_none idle]

/-- Settles O52: with nothing to offer a step in IDLE is a RESET or a wait, and both leave a final state (`isFinal_step`). -/
theorem finalStatesStayFinal : Obligations.FinalStatesStayFinal := by
  refine ⟨fun s idle quiet => ⟨idle, fun a ha => ?noOffer⟩, ?notFinal, fun s t h hr hs => ?waits, fun k s h => ?runs⟩
  case noOffer => obtain rfl | rfl | rfl := quiet a ha <;> rfl
  case notFinal =>
    rintro s (run | done) ⟨idle, -⟩
    · simp [run] at idle
    · simp [done] at idle
  case waits =>
    obtain ⟨idle, noOffer⟩ := h
    simpa [hr, hs] using step_no_offer idle noOffer
  case runs =>
    have keeps (t u : State) (ht : t.isFinal ∧ t.delivered = s.delivered) (hs : step t = .next u) :
        u.isFinal ∧ u.delivered = s.delivered := by
      obtain ⟨hu, same⟩ := isFinal_step ht.1 hs
      exact ⟨hu, same.trans ht.2⟩
    exact run_keeps keeps k ⟨h, rfl⟩

/-- Settles O22: `State.resetStep` names the free values, and the outputs are those of IDLE. -/
theorem resetGoesIdleFromEveryState : Obligations.ResetGoesIdleFromEveryState := fun s =>
  ⟨s.resetStep, exec_reset s, rfl, rfl, rfl, rfl, rfl, rfl, rfl, rfl, rfl, State.rspBlock_none (by simp), rfl, rfl, rfl⟩

/-- Settles O28, operation by operation: each is nothing outside its own phase. -/
theorem stepsNotEnabledChangeNothing : Obligations.StepsNotEnabledChangeNothing := by
  intro s op key block
  refine ⟨fun busy => ⟨?start, ?enc, ?dec⟩, fun notRun => ?round, fun notDone => ?take⟩
  case start => rw [exec_start, State.startStep_disabled busy]
  case enc => rw [exec_enc, State.transact_disabled busy]
  case dec => rw [exec_dec, State.transact_disabled busy]
  case round => rw [exec_round, State.roundStep_disabled notRun]
  case take => rw [exec_take, State.takeStep_disabled notDone]

/-- Settles O31: `step` is a case split on what `State.fetch` decodes, the EVT word of driven ports or the command itself. -/
theorem stepRunsTheDecodedInstruction : Obligations.StepRunsTheDecodedInstruction := by
  refine fun s => ⟨fun i hf _ => ?decoded, fun r hf => ?rejected, fun p rest hh => ⟨?driven, hostAfter_of_drive hh⟩,
    fun w rest hh idle => ⟨?command, ?commandGone⟩⟩
  case decoded => rw [step, hf]
  case rejected => rw [step, hf]; rfl
  case driven => simp [State.fetch, State.encoded, hh, ports_of_drive hh]
  case command => simp [State.fetch, State.encoded, hh, idle]
  case commandGone => simp [State.hostAfter, hh, idle]

/-- Settles O36: `step_held_run` for the rounds; in DONE the state is the next state, and so the state after every run. -/
theorem heldCommandWaits : Obligations.HeldCommandWaits := by
  refine fun s w rest hh => ⟨fun run => ⟨s.advance, ?round, step_held_run hh run, rfl⟩, fun done k => ?waits⟩
  case round => rw [exec_round, State.roundStep_run run]
  case waits =>
    have keeps (t u : State) (ht : t = s) (hs : step t = .next u) : u = s := by
      subst ht
      exact (Host.Outcome.next.inj ((step_held_done hh done).symm.trans hs)).symm
    obtain ⟨t, hrun, rfl⟩ := run_keeps (P := (· = s)) keeps k rfl
    exact hrun

/-- Settles O48: RESET, START and a command write all six registers, so what they leave is a function of the other fields. -/
theorem nothingCarriesOverBetweenCommands : Obligations.NothingCarriesOverBetweenCommands := by
  intro s u host delivered resets
  refine ⟨?reset, fun hs hu op key block => ⟨?start, ?enc, ?dec⟩⟩
  case reset => rw [exec_reset, exec_reset, resetStep_congr host delivered resets]
  case start =>
    rw [exec_start, exec_start, State.startStep_idle hs, State.startStep_idle hu, load_congr host delivered resets]
  case enc => rw [exec_enc, exec_enc, transact_congr host delivered resets hs hu]
  case dec => rw [exec_dec, exec_dec, transact_congr host delivered resets hs hu]

end Sys2Proof.Proofs.StepClaims
end
